-- ==== Sys2Proof/Word.lean ====
section
/-! DEFINITION. The word types of the Frame Converter: a register or command word (R5 `REG_WORD`), a byte (`u8`, R7), a dimension (R5 `DIM_BITS`). -/

namespace Sys2Proof

/-- A register or the command word: 32 bits (00_scope.md R5, `REG_WORD`). -/
abbrev Word := BitVec 32

/-- A sample, channel or buffer byte: `u8` (00_scope.md R7). -/
abbrev Byte := BitVec 8

/-- A frame dimension or a coordinate: 16 bits (00_scope.md R5 `DIM_BITS`; 10_state.md R25, R27). -/
abbrev Dim := BitVec 16

end Sys2Proof
end

