-- ==== Sys2Proof/Syntax.lean ====
section
/-! DEFINITION. The commands: one constructor for each row of spec/opcode_table.json. A command carries no operand in its word (R82). -/

namespace Sys2Proof

/-- The four commands a write to `CMD` can carry (30_encoding.md R81). -/
inductive Instr where
  /-- `NOP`, word `0x0000_0000` (40_commands.md R108). -/
  | nop
  /-- `CONV.RGB`, word `0x0000_0001` (40_commands.md R110). -/
  | convRgb
  /-- `CONV.RGBA`, word `0x0000_0011` (40_commands.md R111). -/
  | convRgba
  /-- `SRST`, word `0x0000_000F` (40_commands.md R112). -/
  | srst
  deriving DecidableEq, Repr

end Sys2Proof
end

