-- ==== Sys2Proof/WellFormed.lean ====
section
/-! DEFINITION. Well-formedness of a command: the three checks on the fields of format `C` (R80, R83, R89). -/

namespace Sys2Proof

/-- The fields of the one command format `C` (30_encoding.md R80): `OP` in bits 3:0, `A` in bit 4, `RSV` in bits 31:5. -/
structure FormatC where
  op : BitVec 4
  a : BitVec 1
  rsv : BitVec 27
  deriving DecidableEq, Repr

/-- `RSV` must be zero (R80). -/
def FormatC.rsvZero (f : FormatC) : Bool := f.rsv == 0

/-- `OP` is 0x0, 0x1 or 0xF; 0x2 to 0xE are reserved (R83). -/
def FormatC.opDefined (f : FormatC) : Bool := f.op == 0x0 || f.op == 0x1 || f.op == 0xF

/-- `A` must be 0 unless `OP = 0x1` (R80). -/
def FormatC.formatBitAllowed (f : FormatC) : Bool := f.a == 0 || f.op == 0x1

/-- The fields of a command: all three checks hold (R80, R83, R89). -/
def FormatC.wellFormed (f : FormatC) : Bool := f.rsvZero && f.opDefined && f.formatBitAllowed

/-- The fields the opcode table gives each command (30_encoding.md R81, columns `OP`, `A`, `RSV`). -/
def Instr.tableFields : Instr → FormatC
  | .nop => ⟨0x0, 0, 0⟩
  | .convRgb => ⟨0x1, 0, 0⟩
  | .convRgba => ⟨0x1, 1, 0⟩
  | .srst => ⟨0xF, 0, 0⟩

/-- A command has no operand (R82), so what there is to check is that its fields meet format `C`. -/
def Instr.wellFormed (i : Instr) : Bool := i.tableFields.wellFormed

end Sys2Proof
end

