-- ==== Sys2Proof/Decode.lean ====
section
/-! DEFINITION. The decoder, total on 32-bit words and on byte strings, rejecting by name (R81, R89); the byte order of words (R54); then the
encoder, from the fields of format `C` (R80, R81). -/

namespace Sys2Proof

/-- Why a word is no command (30_encoding.md R89), or why bytes are no command word (R80). -/
inductive IllegalWord where
  /-- A bit of 31:5 is set. -/
  | reservedBits
  /-- `OP` is one of 0x2 to 0xE. -/
  | reservedOp
  /-- `A = 1` with `OP` 0x0 or 0xF. -/
  | formatBit
  /-- The bytes are not exactly one 32-bit word. -/
  | notOneWord
  deriving DecidableEq, Repr

/-- What a word written to `CMD` is (R81): one of the four commands, or `ILLEGAL`. -/
inductive Decoded where
  | command (i : Instr)
  | illegal (why : IllegalWord)
  deriving DecidableEq, Repr

/-- The command, if it is one. -/
def Decoded.toOption : Decoded → Option Instr
  | .command i => some i
  | .illegal _ => none

/-- The fields of a command word (R80). -/
def FormatC.ofWord (w : Word) : FormatC :=
  ⟨w.extractLsb' 0 4, w.extractLsb' 4 1, w.extractLsb' 5 27⟩

/-- Which rule of R89 an illegal word breaks. -/
def illegalKind (w : Word) : IllegalWord :=
  let f := FormatC.ofWord w
  if f.rsvZero = false then .reservedBits
  else if f.opDefined = false then .reservedOp
  else .formatBit

/-- `decode` of 30_encoding.md R81, test for test. Every word but four is illegal (R89). -/
def decode (w : Word) : Decoded :=
  if w = 0x00000000 then .command .nop
  else if w = 0x00000001 then .command .convRgb
  else if w = 0x00000011 then .command .convRgba
  else if w = 0x0000000F then .command .srst
  else .illegal (illegalKind w)

/-- The bytes of a word in ascending offset: little-endian (20_memory.md R54). -/
def bytesOfWord (w : Word) : List Byte :=
  [w.extractLsb' 0 8, w.extractLsb' 8 8, w.extractLsb' 16 8, w.extractLsb' 24 8]

/-- The word whose bytes stand at ascending offsets `k` to `k+3`: the byte at `k` is bits 7:0 (20_memory.md R54). -/
def wordOfBytes (b0 b1 b2 b3 : Byte) : Word := b3 ++ b2 ++ b1 ++ b0

/-- Decoding of bytes laid out as on a byte-addressed bus: a command is always exactly one word (R80). -/
def decodeBytes : List Byte → Decoded
  | [b0, b1, b2, b3] => decode (wordOfBytes b0 b1 b2 b3)
  | _ => .illegal .notOneWord

/-- The fields of a command (R81). -/
def fieldsOf : Instr → FormatC := Instr.tableFields

/-- The word whose fields of format `C` are these (R80). -/
def FormatC.toWord (f : FormatC) : Word := f.rsv ++ f.a ++ f.op

/-- The word of a command (R81). -/
def encode (i : Instr) : Word := (fieldsOf i).toWord

/-- The word of an instruction of `nbits` bits with the value `w`; every bit above `nbits` is 0. -/
def tableWord (nbits w : Nat) : Word := BitVec.ofNat 32 (w % 2 ^ nbits)

/-- The instruction this decoder reads from the bits the opcode table numbers: laid out as bytes in the bus order (R54), then decoded.
Bits above `nbits` are 0; no command is longer than one word (R80), so a value that needs more is none. -/
def decodeTableWord (nbits w : Nat) : Option Instr :=
  if w % 2 ^ nbits < 2 ^ 32 then (decodeBytes (bytesOfWord (tableWord nbits w))).toOption else none

end Sys2Proof
end

