-- ==== Sys2Proof/Config.lean ====
section
/-! DEFINITION. What an implementation fixes (the two capacities the spec leaves OPEN, R5) and the free values (bytes the spec calls unspecified).
Nothing in Lean can evaluate an opaque constant, so every theorem holds for every choice of it. -/

namespace Sys2Proof.Config

/-- What the input buffer holds beyond the 6 bytes of the smallest frame: any number that keeps `IBUF_BYTES` at most `2^32`
(00_scope.md R5; D5). Log 2. -/
opaque ibufExtra : Fin (4294967290 + 1)

/-- What the output buffer holds beyond the 16 bytes of the smallest RGBA frame: any number that keeps `OBUF_BYTES` at most `2^32`
(00_scope.md R5; D5). Log 2. -/
opaque obufExtra : Fin (4294967280 + 1)

/-- `IBUF_BYTES`, OPEN under `6 <= IBUF_BYTES <= 2^32` (00_scope.md R5). -/
def ibufBytes : Nat := 6 + ibufExtra.val

/-- `OBUF_BYTES`, OPEN under `16 <= OBUF_BYTES <= 2^32` (00_scope.md R5). -/
def obufBytes : Nat := 16 + obufExtra.val

/-- FREE VALUE. The byte of `IBUF` that draw number `draw` gives the offset `off`: any u8, each byte independently
(10_state.md R42; U12). Logs 3 and 4. -/
opaque unspecifiedIbuf (draw off : Nat) : Byte

/-- FREE VALUE. The byte of `OBUF` that draw number `draw` gives the offset `off`: any u8, each byte independently
(10_state.md R42; 40_commands.md R112; 60_exceptions.md R200; U11, U12). Logs 3 and 4. -/
opaque unspecifiedObuf (draw off : Nat) : Byte

end Sys2Proof.Config
end

