-- ==== Sys2Proof/Machine/State.lean ====
section
/-! DEFINITION. The state of one block instance as plain data (10_state.md R21, R42), the moves of HOST, ENGINE and the reset input (R20), and the
reasons a step can stop. -/

namespace Sys2Proof.Machine

/-- Why a step stops with a fault. The spec's own faults (60_exceptions.md R190) are NEXT states and not among these: each constructor here
stands for a fact the spec asserts of ENGINE and does not check, and no run reaches it (log 7). -/
inductive Fault where
  /-- Raised by the pixel step when `pos` is no pixel of the latched frame, against R114's `assert`. Safe: R27 rules it out. -/
  | pixelOutsideFrame
  /-- Raised by the pixel step when a sample's offset is not below `IBUF_BYTES`. Safe: R61 rules it out. -/
  | ibufOffsetOutside
  /-- Raised by the pixel step when the pixel's bytes are not all below `OBUF_BYTES`. Safe: R61 rules it out. -/
  | obufOffsetOutside
  deriving DecidableEq, Repr

/-- Why a move has no meaning. -/
inductive Refusal where
  /-- Raised by an arm of `exec` whose instruction has no meaning yet. Safe. -/
  | notModelled (mnemonic : String)
  /-- Raised by RD and WR: the access is not one aligned 32-bit word below offset 256 (20_memory.md R56: refused). Safe (log 6). -/
  | registerAccess
  /-- Raised by LDB and STB on `IBUF` at an offset not below `IBUF_BYTES` (20_memory.md R58: refused). Safe (log 6). -/
  | ibufOffset
  /-- Raised by LDB and STB on `OBUF` at an offset not below `OBUF_BYTES` (20_memory.md R58: refused). Safe (log 6). -/
  | obufOffset
  deriving DecidableEq, Repr

/-- The six causes of the spec's faults (60_exceptions.md R190; U15). -/
inductive Cause where
  | illegalCmd
  | busy
  | dimZero
  | dimOdd
  | capacity
  | lenMismatch
  deriving DecidableEq, Repr

/-- The fields of `STATUS` (10_state.md R29); its other bits are hardwired 0. -/
structure Status where
  busy : Bool
  done : Bool
  err : Bool
  cause : BitVec 4
  alpha : Bool
  deriving DecidableEq, Repr

/-- The fields of `IRQ_EN` (10_state.md R34); its other bits are hardwired 0. -/
structure IrqEn where
  doneIe : Bool
  errIe : Bool
  deriving DecidableEq, Repr

/-- The position counter `pos = (row, col)` (10_state.md R27). -/
structure Pos where
  row : Dim
  col : Dim
  deriving DecidableEq, Repr

/-- A buffer: the bytes written since the last hardware reset, by strictly rising offset. An offset that is not listed holds a byte the spec
calls unspecified (R42, R233): see `ibufByte` and `obufByte`. -/
abbrev Memory := List Host.Cell

/-- One HOST transaction (40_commands.md R100 to R105, R106). A register access names its width in bits, so that the accesses R56 refuses can be
written down. -/
inductive Txn where
  /-- `RD`: read `bits` bits of `REG` at `off` (R100). -/
  | rd (bits off : Nat)
  /-- `WR`: write `v`, `bits` bits wide, to `REG` at `off` (R101). -/
  | wr (bits off : Nat) (v : Word)
  /-- `LDB IBUF[off]` (R102). -/
  | ldbIbuf (off : Nat)
  /-- `STB IBUF[off], b` (R103). -/
  | stbIbuf (off : Nat) (b : Byte)
  /-- `LDB OBUF[off]` (R104). -/
  | ldbObuf (off : Nat)
  /-- `STB OBUF[off], b` (R105). -/
  | stbObuf (off : Nat) (b : Byte)
  deriving DecidableEq, Repr

/-- One entry of the total order of atomic steps (20_memory.md R65). -/
inductive Move where
  /-- A HOST transaction. -/
  | host (t : Txn)
  /-- ENGINE is scheduled (R113). -/
  | engine
  /-- A hardware reset (70_reset_and_hazards.md R220). -/
  | reset
  deriving DecidableEq, Repr

/-- The data a HOST transaction returns. -/
inductive Reply where
  | none
  | word (v : Word)
  | byte (b : Byte)
  deriving DecidableEq, Repr

/-- The state of one block instance (R21), and the model's own four fields. -/
structure State where
  /-- `REG.STATUS` (R29). -/
  status : Status
  /-- `REG.WIDTH` bits 15:0 (R31). -/
  width : Dim
  /-- `REG.HEIGHT` bits 15:0 (R32). -/
  height : Dim
  /-- `REG.IN_LEN` (R33). -/
  inLen : Word
  /-- `REG.IRQ_EN` (R34). -/
  irqEn : IrqEn
  /-- `w_lat` (R25). -/
  wLat : Dim
  /-- `h_lat` (R25). -/
  hLat : Dim
  /-- `pos` (R27). -/
  pos : Pos
  /-- `IBUF` (R36). -/
  ibuf : Memory
  /-- `OBUF` (R37). -/
  obuf : Memory
  /-- The model's own: the draw that gave both buffers their unspecified bytes at the last hardware reset (log 3). -/
  bufDraw : Nat
  /-- The model's own: the number of the next draw of unspecified bytes (log 4). -/
  draws : Nat
  /-- The model's own: the moves to come, in the total order of R65 (log 1). -/
  inbox : List Move
  /-- The model's own: what the last HOST transaction returned (log 8). -/
  reply : Reply
  deriving DecidableEq, Repr

/-- The block right after a hardware reset (10_state.md R42, 70_reset_and_hazards.md R220): every register, flag, latch and `pos` zero, every
buffer byte unspecified (nothing listed). The model's own fields: logs 1, 3, 4, 8. -/
def State.reset : State where
  status := ⟨false, false, false, 0, false⟩
  width := 0
  height := 0
  inLen := 0
  irqEn := ⟨false, false⟩
  wLat := 0
  hLat := 0
  pos := ⟨0, 0⟩
  ibuf := []
  obuf := []
  bufDraw := 0
  draws := 1
  inbox := []
  reply := .none

end Sys2Proof.Machine
end

