-- ==== Sys2Proof/Machine/Flags.lean ====
section
/-! DEFINITION. The flags and what is read off them: the word of `STATUS` and of `IRQ_EN`, the cause codes, the phase, and the interrupt output. The
block has no arithmetic condition code (10_state.md R39). -/

namespace Sys2Proof.Machine

/-- The code `STATUS.CAUSE` holds for a cause (60_exceptions.md R190). -/
def causeCode : Cause → BitVec 4
  | .illegalCmd => 1
  | .busy => 2
  | .dimZero => 3
  | .dimOdd => 4
  | .capacity => 5
  | .lenMismatch => 6

/-- `STATUS` as HOST reads it: `{0[22:0], ALPHA, CAUSE[3:0], 0, ERR, DONE, BUSY}` (40_commands.md R100, 10_state.md R29). -/
def statusWord (st : Status) : Word :=
  (0#23) ++ BitVec.ofBool st.alpha ++ st.cause ++ (0#1) ++ BitVec.ofBool st.err ++ BitVec.ofBool st.done ++
    BitVec.ofBool st.busy

/-- `IRQ_EN` as HOST reads it: `{0[28:0], ERR_IE, DONE_IE, 0}` (R100, R34). -/
def irqEnWord (e : IrqEn) : Word := (0#29) ++ BitVec.ofBool e.errIe ++ BitVec.ofBool e.doneIe ++ (0#1)

/-- A write of `v` to `STATUS`: bit 1 clears `DONE`, every other bit is ignored (R29, R101). -/
def writeOneToClear (st : Status) (v : Word) : Status :=
  if v.getLsbD 1 = true then { st with done := false } else st

/-- A write of `v` to `IRQ_EN` (R101, R34). -/
def irqEnOfWord (v : Word) : IrqEn := ⟨v.getLsbD 1, v.getLsbD 2⟩

/-- The three phases (10_state.md R26). -/
inductive Phase where
  | error
  | busy
  | idle
  deriving DecidableEq, Repr

/-- The phase, read off `STATUS` (R26). -/
def phaseOf (st : Status) : Phase :=
  if st.err = true then .error else if st.busy = true then .busy else .idle

/-- The interrupt output `irq`, a pure function of state (10_state.md R38). -/
def irqOf (s : State) : Bool :=
  (s.status.done && s.irqEn.doneIe) || (s.status.err && s.irqEn.errIe)

end Sys2Proof.Machine
end

