-- ==== Sys2Proof/Machine/Operands.lean ====
section
/-! DEFINITION. The operands of a conversion (R82) and what is derived from them (R10), the checks on them (R109), and which accesses are defined
(R56, R58). All arithmetic is exact (R7). -/

namespace Sys2Proof.Machine

/-- `CW`: chroma plane width in samples (00_scope.md R10). -/
def chromaW (w : Nat) : Nat := w / 2

/-- `CH`: chroma plane height in samples (R10). -/
def chromaH (h : Nat) : Nat := h / 2

/-- `YSIZE`: bytes in the luma plane (R10). -/
def ysize (w h : Nat) : Nat := w * h

/-- `CSIZE`: bytes in each chroma plane (R10). -/
def csize (w h : Nat) : Nat := chromaW w * chromaH h

/-- `UBASE`: offset of the U plane (R10). -/
def ubase (w h : Nat) : Nat := ysize w h

/-- `VBASE`: offset of the V plane (R10). -/
def vbase (w h : Nat) : Nat := ysize w h + csize w h

/-- `FSIZE`: bytes in one input frame (R10). -/
def fsize (w h : Nat) : Nat := ysize w h + 2 * csize w h

/-- `BPP`: bytes per output pixel, `3 + A` (R10). -/
def bpp (a : Bool) : Nat := 3 + a.toNat

/-- `OSIZE`: bytes in one output frame (R10). -/
def osize (w h : Nat) (a : Bool) : Nat := w * h * bpp a

/-- The checks of `conv(A)` in their order (40_commands.md R109, 60_exceptions.md R199): the cause of the first that fails, on the capacities
`ibytes` and `obytes`, the flag `BUSY`, and the operands `W`, `H`, `L` (R82). -/
def convFault (ibytes obytes : Nat) (busy : Bool) (w h : Dim) (len : Word) (a : Bool) : Option Cause :=
  if busy = true then some .busy
  else if w = 0 ∨ h = 0 then some .dimZero
  else if w.getLsbD 0 = true ∨ h.getLsbD 0 = true then some .dimOdd
  else if w.toNat * h.toNat * 3 / 2 > ibytes ∨ w.toNat * h.toNat * (3 + a.toNat) > obytes then some .capacity
  else if len.toNat ≠ w.toNat * h.toNat * 3 / 2 then some .lenMismatch
  else none

/-- A `REG` access is defined only as one aligned 32-bit word below offset 256 (20_memory.md R56). -/
def regAccessDefined (bits off : Nat) : Bool := bits == 32 && off % 4 == 0 && decide (off < 256)

/-- An `IBUF` offset that exists (R58). -/
def ibufHas (off : Nat) : Bool := decide (off < Config.ibufBytes)

/-- An `OBUF` offset that exists (R58). -/
def obufHas (off : Nat) : Bool := decide (off < Config.obufBytes)

/-- The transactions R100 to R105 give a meaning; every other one is refused (R56, R58, R106). -/
def txnDefined : Txn → Bool
  | .rd bits off => regAccessDefined bits off
  | .wr bits off _ => regAccessDefined bits off
  | .ldbIbuf off => ibufHas off
  | .stbIbuf off _ => ibufHas off
  | .ldbObuf off => obufHas off
  | .stbObuf off _ => obufHas off

end Sys2Proof.Machine
end

