-- ==== Sys2Proof/Machine/Ops.lean ====
section
/-! DEFINITION. The named operations over buffers and registers; fault entry (R200) as one shared operation, and beside it the only two ways out of phase
ERROR (R202): the soft and the hardware reset. -/

namespace Sys2Proof.Machine

/-! ## Buffers as data -/

/-- The byte listed at an offset, `none` where nothing has been written. -/
def Memory.get? : Memory → Nat → Option Byte
  | [], _ => none
  | (k, b) :: m, a => if a = k then some b else if a < k then none else Memory.get? m a

/-- Write one byte, keeping the offsets strictly rising. -/
def Memory.set : Memory → Nat → Byte → Memory
  | [], a, b => [(a, b)]
  | (k, c) :: m, a, b =>
    if a < k then (a, b) :: (k, c) :: m
    else if a = k then (a, b) :: m
    else (k, c) :: Memory.set m a b

/-- Every listed offset is above `a`. -/
def Memory.above (a : Nat) (m : Memory) : Bool := m.all fun c => decide (a < c.1)

/-- The canonical form: offsets strictly rising, so none listed twice. A listed byte is one that was written or drawn, an unlisted offset holds
none (`Memory.get?` gives `none`), so no entry equals what an unlisted offset holds. -/
def Memory.wf : Memory → Bool
  | [] => true
  | (k, _) :: m => Memory.above k m && Memory.wf m

/-- Every listed offset exists in a space of `size` bytes. -/
def Memory.within (size : Nat) (m : Memory) : Bool := m.all fun c => decide (c.1 < size)

/-- `MemWrite(space, a, n, bytes)`: the bytes in ascending offset order (00_scope.md R9). -/
def Memory.write : Memory → Nat → List Byte → Memory
  | m, _, [] => m
  | m, a, b :: bs => Memory.write (Memory.set m a b) (a + 1) bs

/-- For each `k` in `0 .. n-1`, write `f k` at offset `k`. -/
def Memory.fill (m : Memory) (f : Nat → Byte) : Nat → Memory
  | 0 => m
  | n + 1 => Memory.set (Memory.fill m f n) n (f n)

/-! ## Buffers of the block -/

/-- `IBUF[off]`: the byte written, or the stable unspecified byte of the last hardware reset (10_state.md R36, R42; R233). -/
def ibufByte (s : State) (off : Nat) : Byte :=
  match Memory.get? s.ibuf off with
  | some b => b
  | none => Config.unspecifiedIbuf s.bufDraw off

/-- `OBUF[off]`, likewise (R37, R42). -/
def obufByte (s : State) (off : Nat) : Byte :=
  match Memory.get? s.obuf off with
  | some b => b
  | none => Config.unspecifiedObuf s.bufDraw off

/-- `MemRead(IBUF, a, n)` (00_scope.md R9). -/
def readIbuf (s : State) (a n : Nat) : List Byte := (List.range n).map fun k => ibufByte s (a + k)

/-- `MemRead(OBUF, a, n)` (R9). -/
def readObuf (s : State) (a n : Nat) : List Byte := (List.range n).map fun k => obufByte s (a + k)

/-- `IBUF[off] <- b` (R103). -/
def storeIbuf (s : State) (off : Nat) (b : Byte) : State := { s with ibuf := Memory.set s.ibuf off b }

/-- `MemWrite(OBUF, a, bytes)` (R9, 43_pixel_pack.md R182). -/
def storeObuf (s : State) (a : Nat) (bytes : List Byte) : State := { s with obuf := Memory.write s.obuf a bytes }

/-! ## Registers -/

/-- The value of a register read at a defined offset (40_commands.md R100). -/
def readReg (s : State) (off : Nat) : Word :=
  if off = 0x00 then 0
  else if off = 0x04 then statusWord s.status
  else if off = 0x08 then s.width.setWidth 32
  else if off = 0x0C then s.height.setWidth 32
  else if off = 0x10 then s.inLen
  else if off = 0x14 then irqEnWord s.irqEn
  else 0

/-- A register write at a defined offset other than `CMD` (40_commands.md R101). -/
def writeReg (s : State) (off : Nat) (v : Word) : State :=
  if off = 0x04 then { s with status := writeOneToClear s.status v }
  else if off = 0x08 then { s with width := v.setWidth 16 }
  else if off = 0x0C then { s with height := v.setWidth 16 }
  else if off = 0x10 then { s with inLen := v }
  else if off = 0x14 then { s with irqEn := irqEnOfWord v }
  else s

/-! ## Aborting, fault entry, and the resets -/

/-- `OSIZE(w_lat, h_lat, STATUS.ALPHA)`: the output bytes of the latched frame. -/
def latchedOsize (s : State) : Nat := osize s.wLat.toNat s.hLat.toNat s.status.alpha

/-- `if was_busy = 1 then for each k in 0 .. n-1: OBUF[k] <- unspecified u8` (R112, R200, R231): every byte of the aborted frame is a free
value of a draw not used before. -/
def abortFrame (s : State) : State :=
  if s.status.busy = true then
    { s with
      obuf := Memory.fill s.obuf (Config.unspecifiedObuf s.draws) (latchedOsize s)
      draws := s.draws + 1 }
  else s

/-- `raise Fault(cause)`: fault entry (60_exceptions.md R200), the block's taking of an exception. It saves nothing and jumps nowhere. -/
def enterFault (c : Cause) (s : State) : State :=
  let s' := abortFrame s
  { s' with
    status := { s'.status with err := true, cause := causeCode c, busy := false }
    pos := ⟨0, 0⟩ }

/-- `do_srst` (40_commands.md R112): the way out of phase ERROR that HOST has (R202). -/
def softReset (s : State) : State :=
  let s' := abortFrame s
  { s' with
    status := ⟨false, false, false, 0, false⟩
    width := 0
    height := 0
    inLen := 0
    irqEn := ⟨false, false⟩
    wLat := 0
    hLat := 0
    pos := ⟨0, 0⟩ }

/-- A hardware reset (70_reset_and_hazards.md R220, R221): the reset state, with every buffer byte a new draw. The moves to come are the outside
world's and stay. -/
def hardReset (s : State) : State :=
  { State.reset with bufDraw := s.draws, draws := s.draws + 1, inbox := s.inbox }

/-! ## Acceptance of a conversion -/

/-- What an accepted conversion command does (40_commands.md R109, after `-- accepted`). -/
def acceptConv (a : Bool) (s : State) : State :=
  { s with
    wLat := s.width
    hLat := s.height
    status := { s.status with alpha := a, done := false, busy := true }
    pos := ⟨0, 0⟩ }

/-- `conv(A)` (R109): the checks, then acceptance. -/
def conv (a : Bool) (s : State) : State :=
  match convFault Config.ibufBytes Config.obufBytes s.status.busy s.width s.height s.inLen a with
  | some c => enterFault c s
  | none => acceptConv a s

/-- The `ERR` gate of `exec_cmd` (R107): in phase ERROR the command is ignored. -/
def unlessError (s : State) (f : State → State) : State := if s.status.err = true then s else f s

end Sys2Proof.Machine
end

