-- ==== Sys2Proof/Machine/Commands.lean ====
section
/-! DEFINITION. The meaning of each command, one definition per row of the opcode table (40_commands.md R107 to R112). -/

namespace Sys2Proof.Machine

/-- `NOP` (R108): no register, flag, buffer byte or `pos` changes, in any phase. -/
def execNop (s : State) : Host.Outcome State Fault Refusal := .next s

/-- `CONV.RGB` (R110): `conv(0)`, ignored in phase ERROR (R107). -/
def execConvRgb (s : State) : Host.Outcome State Fault Refusal := .next (unlessError s (conv false))

/-- `CONV.RGBA` (R111): `conv(1)`, ignored in phase ERROR (R107). -/
def execConvRgba (s : State) : Host.Outcome State Fault Refusal := .next (unlessError s (conv true))

/-- `SRST` (R112): recognised before the `ERR` gate, so it acts in every phase (R107). -/
def execSrst (s : State) : Host.Outcome State Fault Refusal := .next (softReset s)

end Sys2Proof.Machine
end

