-- ==== Sys2Proof/Machine/Dispatch.lean ====
section
/-! DEFINITION. The dispatch: one arm per command. -/

namespace Sys2Proof.Machine

def exec (i : Instr) (s : State) : Host.Outcome State Fault Refusal :=
  match i with
  | .nop => Sys2Proof.Machine.execNop s
  | .convRgb => Sys2Proof.Machine.execConvRgb s
  | .convRgba => Sys2Proof.Machine.execConvRgba s
  | .srst => Sys2Proof.Machine.execSrst s

end Sys2Proof.Machine
end

