-- ==== Sys2Proof/Machine/Csc.lean ====
section
/-! DEFINITION. The colour-space converter (CSC): 42_color_transform.md R150 to R158, on exact integers (R7, R163), with the hardwired constants of
00_scope.md R6. -/

namespace Sys2Proof.Machine

/-- `Y_OFF` (R6). -/
def yOff : Int := 16
/-- `C_OFF` (R6). -/
def cOff : Int := 128
/-- `K_Y` (R6). -/
def kY : Int := 298
/-- `K_RV` (R6). -/
def kRV : Int := 409
/-- `K_GU` (R6). -/
def kGU : Int := 100
/-- `K_GV` (R6). -/
def kGV : Int := 208
/-- `K_BU` (R6). -/
def kBU : Int := 516
/-- `RND` (R6). -/
def rnd : Int := 128

/-- `BIASY(Y)` (R150). -/
def biasY (y : Byte) : Int := (y.toNat : Int) - yOff

/-- `BIASU(U)` (R151). -/
def biasU (u : Byte) : Int := (u.toNat : Int) - cOff

/-- `BIASV(V)` (R152). -/
def biasV (v : Byte) : Int := (v.toNat : Int) - cOff

/-- `MACR(c, e)` (R153). -/
def macR (c e : Int) : Int := kY * c + kRV * e + rnd

/-- `MACG(c, d, e)` (R154). -/
def macG (c d e : Int) : Int := kY * c - kGU * d - kGV * e + rnd

/-- `MACB(c, d)` (R155). -/
def macB (c d : Int) : Int := kY * c + kBU * d + rnd

/-- `SHR8(s)`: the floor of `s / 256` (R156, R161; `SH = 8`). Lean's integer division rounds down for a positive divisor. -/
def shr8 (s : Int) : Int := s / 256

/-- `CLAMP8(t)` (R157; `CH_MIN`, `CH_MAX` of R6). -/
def clamp8 (t : Int) : Byte := if t < 0 then 0 else if t > 255 then 255 else BitVec.ofInt 8 t

/-- The three channel bytes of a pixel. -/
structure Rgb where
  r : Byte
  g : Byte
  b : Byte
  deriving DecidableEq, Repr

/-- `CSC(Y, U, V)` (R158). -/
def csc (y u v : Byte) : Rgb where
  r := clamp8 (shr8 (macR (biasY y) (biasV v)))
  g := clamp8 (shr8 (macG (biasY y) (biasU u) (biasV v)))
  b := clamp8 (shr8 (macB (biasY y) (biasU u)))

end Sys2Proof.Machine
end

