-- ==== Sys2Proof/Machine/Cup.lean ====
section
/-! DEFINITION. The chroma upsampler (CUP): the sample fetches of 41_chroma_upsample.md, nearest-neighbour replication (R2, R139). -/

namespace Sys2Proof.Machine

/-- `CIDX(row, col)`: the chroma coordinates of a pixel (R132). -/
def cidx (row col : Nat) : Nat × Nat := (row / 2, col / 2)

/-- `COFF(crow, ccol)`: offset of a chroma element in its plane (R133). -/
def coff (w crow ccol : Nat) : Nat := crow * chromaW w + ccol

/-- Offset in `IBUF` of the luma sample of a pixel (R131). -/
def yOffset (w row col : Nat) : Nat := row * w + col

/-- Offset in `IBUF` of a U sample (R134). -/
def uOffset (w h crow ccol : Nat) : Nat := ubase w h + coff w crow ccol

/-- Offset in `IBUF` of a V sample (R135). -/
def vOffset (w h crow ccol : Nat) : Nat := vbase w h + coff w crow ccol

/-- `YFETCH(row, col)` (R131), with `W = w_lat`. -/
def yfetch (s : State) (row col : Nat) : Byte := ibufByte s (yOffset s.wLat.toNat row col)

/-- `UFETCH(crow, ccol)` (R134). -/
def ufetch (s : State) (crow ccol : Nat) : Byte := ibufByte s (uOffset s.wLat.toNat s.hLat.toNat crow ccol)

/-- `VFETCH(crow, ccol)` (R135). -/
def vfetch (s : State) (crow ccol : Nat) : Byte := ibufByte s (vOffset s.wLat.toNat s.hLat.toNat crow ccol)

end Sys2Proof.Machine
end

