-- ==== Sys2Proof/Machine/Pack.lean ====
section
/-! DEFINITION. Pixel assembly and store: 43_pixel_pack.md, the layouts of 30_encoding.md R86 to R88. -/

namespace Sys2Proof.Machine

/-- `POFF(row, col, A)`: the `OBUF` offset of a pixel (R181). -/
def poff (w row col : Nat) (a : Bool) : Nat := (row * w + col) * bpp a

/-- The bytes of a pixel in ascending offset (R87, R88): the fourth is `ALPHA_OPAQUE` (R183). -/
def pixelBytes (a : Bool) (p : Rgb) : List Byte := [p.r, p.g, p.b] ++ if a = true then [255] else []

/-- `PSTORE(row, col, A, R, G, B)` (R182), with `W = w_lat` and `A = STATUS.ALPHA`. -/
def pstore (s : State) (row col : Nat) (p : Rgb) : State :=
  storeObuf s (poff s.wLat.toNat row col s.status.alpha) (pixelBytes s.status.alpha p)

end Sys2Proof.Machine
end

