-- ==== Sys2Proof/Machine/Engine.lean ====
section
/-! DEFINITION. ENGINE: the pixel step and the sequencer (40_commands.md R113 to R116). -/

namespace Sys2Proof.Machine

/-- `NEXT`'s new position (R115): one pixel on in raster order. -/
def nextPos (w : Nat) (p : Pos) : Pos :=
  if p.col.toNat + 1 < w then ⟨p.row, p.col + 1⟩ else ⟨p.row + 1, 0⟩

/-- `NEXT` (R115). -/
def advance (s : State) : State := { s with pos := nextPos s.wLat.toNat s.pos }

/-- `FINISH` (R116). -/
def finish (s : State) : State :=
  { s with status := { s.status with busy := false, done := true }, pos := ⟨0, 0⟩ }

/-- `row = H-1 and col = W-1` (R114). -/
def atLastPixel (s : State) : Bool :=
  decide (s.pos.row.toNat + 1 = s.hLat.toNat) && decide (s.pos.col.toNat + 1 = s.wLat.toNat)

/-- The channels of the pixel at `(row, col)` of the latched frame: fetch, upsample, transform (R114, the document's steps 1 to 5). -/
def pixelAt (s : State) (row col : Nat) : Rgb :=
  let y := yfetch s row col
  let c := cidx row col
  csc y (ufetch s c.1 c.2) (vfetch s c.1 c.2)

/-- The effect of `PIXSTEP` (R114): store the pixel at `pos`, then `FINISH` or `NEXT`. -/
def pixelEffect (s : State) : State :=
  let row := s.pos.row.toNat
  let col := s.pos.col.toNat
  let s' := pstore s row col (pixelAt s row col)
  if atLastPixel s = true then finish s' else advance s'

/-- R114's `assert` on `pos`. -/
def posInFrame (s : State) : Bool :=
  decide (s.pos.row.toNat < s.hLat.toNat) && decide (s.pos.col.toNat < s.wLat.toNat)

/-- The three sample offsets exist in `IBUF` (R61). -/
def fetchesInRange (s : State) : Bool :=
  let c := cidx s.pos.row.toNat s.pos.col.toNat
  ibufHas (yOffset s.wLat.toNat s.pos.row.toNat s.pos.col.toNat) &&
    ibufHas (uOffset s.wLat.toNat s.hLat.toNat c.1 c.2) && ibufHas (vOffset s.wLat.toNat s.hLat.toNat c.1 c.2)

/-- The pixel's bytes exist in `OBUF` (R61). -/
def storeInRange (s : State) : Bool :=
  obufHas (poff s.wLat.toNat s.pos.row.toNat s.pos.col.toNat s.status.alpha + bpp s.status.alpha - 1)

/-- `PIXSTEP` (R114). What R114 and R61 assert always holds in a run, so a step that faults is one no run takes (R201; log 7). -/
def pixelStep (s : State) : Host.Outcome State Fault Refusal :=
  if posInFrame s = false then .fault .pixelOutsideFrame
  else if fetchesInRange s = false then .fault .ibufOffsetOutside
  else if storeInRange s = false then .fault .obufOffsetOutside
  else .next (pixelEffect s)

/-- ENGINE is scheduled: it has a step exactly when `BUSY = 1` (R113), and performs nothing otherwise (10_state.md R20). -/
def engineMove (s : State) : Host.Outcome State Fault Refusal :=
  if s.status.busy = true then pixelStep s else .next s

end Sys2Proof.Machine
end

