-- ==== Sys2Proof/Machine/Transactions.lean ====
section
/-! DEFINITION. The six HOST transactions (40_commands.md R100 to R106), the write to `CMD` (R107), and one move of any agent. -/

namespace Sys2Proof.Machine

/-- An illegal word written to `CMD` (R107, R191): a fault when `ERR = 0`, ignored when `ERR = 1`. -/
def execIllegal (s : State) : Host.Outcome State Fault Refusal := .next (unlessError s (enterFault .illegalCmd))

/-- `exec_cmd(w)` (R107): the ERR gate stands in each command's meaning, `SRST` has none. -/
def execCmd (w : Word) (s : State) : Host.Outcome State Fault Refusal :=
  match decode w with
  | .command i => exec i s
  | .illegal _ => execIllegal s

/-- The effect of a transaction R100 to R105 define. -/
def performTxn : Txn → State → Host.Outcome State Fault Refusal
  | .rd _ off, s => .next { s with reply := .word (readReg s off) }
  | .wr _ off v, s => if off = 0x00 then execCmd v s else .next (writeReg s off v)
  | .ldbIbuf off, s => .next { s with reply := .byte (ibufByte s off) }
  | .stbIbuf off b, s => .next (storeIbuf s off b)
  | .ldbObuf off, s => .next { s with reply := .byte (obufByte s off) }
  | .stbObuf _ _, s => .next s

/-- Under which name a transaction that is not defined is refused (R56, R58). -/
def refusalOf : Txn → Refusal
  | .rd _ _ => .registerAccess
  | .wr _ _ _ => .registerAccess
  | .ldbIbuf _ => .ibufOffset
  | .stbIbuf _ _ => .ibufOffset
  | .ldbObuf _ => .obufOffset
  | .stbObuf _ _ => .obufOffset

/-- One HOST transaction (R106): performed as R100 to R105 say, or refused by R56, R58. A new transaction forgets the last one's reply. -/
def runTxn (t : Txn) (s : State) : Host.Outcome State Fault Refusal :=
  if txnDefined t = true then performTxn t { s with reply := .none } else .refused (refusalOf t)

/-- One move of the total order (20_memory.md R65). -/
def runMove (m : Move) (s : State) : Host.Outcome State Fault Refusal :=
  match m with
  | .host t => runTxn t s
  | .engine => engineMove s
  | .reset => .next (hardReset s)

/-- What happens next: the first move to come; with none to come, ENGINE's (R113: it is scheduled whenever it stays enabled). -/
def takeMove (s : State) : Host.Outcome State Fault Refusal :=
  match s.inbox with
  | [] => engineMove s
  | m :: ms => runMove m { s with inbox := ms }

/-- The HOST transaction that issues a command word: an aligned 32-bit write to `REG` offset `0x00` (R28, R80). -/
def issue (w : Word) : Move := .host (.wr 32 0x00 w)

end Sys2Proof.Machine
end

