-- ==== Sys2Proof/Machine/Step.lean ====
section
/-! DEFINITION. One step of the block, and how an instruction is put where the step takes it (log 10). -/

namespace Sys2Proof.Machine

/-- One atomic step of the total order (20_memory.md R65). -/
def step (s : State) : Host.Outcome State Fault Refusal := takeMove s

/-- `s` with HOST's next move the write of this word to `CMD` (10_state.md R28): the block has no program memory (20_memory.md R70), its instruction
is the data of that write. -/
def State.withFetchWord (s : State) (nbits w : Nat) : State := { s with inbox := issue (tableWord nbits w) :: s.inbox }

end Sys2Proof.Machine
end

