-- ==== Sys2Proof/Machine/Datapath.lean ====
section
/-! DEFINITION. The CSC unit on the containers R24 and R5 give it: `c`, `d`, `e` in 9 bits, the sums in 20 bits two's complement (`ACC_W`), the shifted
values in 12 bits, and the clamp by bits (R157). The pixel step uses the exact integers of `csc`; an obligation says the two agree (R163, R164). -/

namespace Sys2Proof.Machine

/-- A bias removed in 9 bits (R150 to R152, `BIAS_W`). -/
def bias9 (x : Byte) (off : BitVec 9) : BitVec 9 := x.setWidth 9 - off

/-- The red sum in 20 bits (R153, `ACC_W`). -/
def accR (c e : BitVec 9) : BitVec 20 := 298 * c.signExtend 20 + 409 * e.signExtend 20 + 128

/-- The green sum in 20 bits (R154). -/
def accG (c d e : BitVec 9) : BitVec 20 :=
  298 * c.signExtend 20 - 100 * d.signExtend 20 - 208 * e.signExtend 20 + 128

/-- The blue sum in 20 bits (R155). -/
def accB (c d : BitVec 9) : BitVec 20 := 298 * c.signExtend 20 + 516 * d.signExtend 20 + 128

/-- Drop the low 8 bits and keep the rest with its sign (R156): 20 bits give 12. -/
def shr8Bits (s : BitVec 20) : BitVec 12 := s.extractLsb' 8 12

/-- The clamp in hardware terms (R157): bit 11 set gives 0; else any of bits 10:8 set gives 255; else bits 7:0. -/
def clamp8Bits (t : BitVec 12) : Byte :=
  if t.getLsbD 11 = true then 0
  else if t.extractLsb' 8 3 ≠ 0 then 255
  else t.extractLsb' 0 8

/-- The CSC unit on bit containers. -/
def cscBits (y u v : Byte) : Rgb :=
  let c := bias9 y 16
  let d := bias9 u 128
  let e := bias9 v 128
  ⟨clamp8Bits (shr8Bits (accR c e)), clamp8Bits (shr8Bits (accG c d e)), clamp8Bits (shr8Bits (accB c d))⟩

end Sys2Proof.Machine
end

