-- ==== Sys2Proof/Machine/Notation.lean ====
section
/-! DEFINITION. What HOST writes as one line but performs as several transactions: the pseudo-instructions of 30_encoding.md R94 and the wide buffer
accesses of 20_memory.md R55. -/

namespace Sys2Proof.Machine

/-- `LOADFRAME b0, b1, ...` (R94). -/
def loadFrame (bytes : List Byte) : List Txn := bytes.zipIdx.map fun p => .stbIbuf p.2 p.1

/-- `CONVERT W, H, RGB` and `CONVERT W, H, RGBA` (R94). -/
def convertLines (w h : Nat) (a : Bool) : List Txn :=
  [.wr 32 0x08 (BitVec.ofNat 32 w), .wr 32 0x0C (BitVec.ofNat 32 h), .wr 32 0x10 (BitVec.ofNat 32 (w * h * 3 / 2)),
    .wr 32 0x00 (encode (if a = true then .convRgba else .convRgb))]

/-- One poll of `WAIT` (R94). -/
def pollStatus : Txn := .rd 32 0x04

/-- `WAIT` is over once the value read has `DONE` (bit 1) or `ERR` (bit 2) set (R94). -/
def waitOver (v : Word) : Bool := v.getLsbD 1 || v.getLsbD 2

/-- `ACK` (R94). -/
def ack : Txn := .wr 32 0x04 0x00000002

/-- `READFRAME n` (R94). -/
def readFrame (n : Nat) : List Txn := (List.range n).map fun k => .ldbObuf k

/-- A read of `IBUF`, `n` bytes wide, at `a` (R55): the single-byte accesses in ascending offset. -/
def wideLoadIbuf (a n : Nat) : List Txn := (List.range n).map fun k => .ldbIbuf (a + k)

/-- A read of `OBUF`, `n` bytes wide, at `a` (R55). -/
def wideLoadObuf (a n : Nat) : List Txn := (List.range n).map fun k => .ldbObuf (a + k)

/-- A write of the number `v` to `IBUF`, `n` bytes wide, at `a` (R55): the byte at the lowest offset is the least significant. -/
def wideStoreIbuf (a n v : Nat) : List Txn := (List.range n).map fun k => .stbIbuf (a + k) (BitVec.ofNat 8 (v / 256 ^ k))

/-- A write of the number `v` to `OBUF`, `n` bytes wide, at `a` (R55): single-byte writes in the same order, each ignored (40_commands.md R105). -/
def wideStoreObuf (a n v : Nat) : List Txn := (List.range n).map fun k => .stbObuf (a + k) (BitVec.ofNat 8 (v / 256 ^ k))

/-- The number whose bytes in ascending offset are these (R54, R55). -/
def littleEndian : List Byte → Nat
  | [] => 0
  | b :: bs => b.toNat + 256 * littleEndian bs

end Sys2Proof.Machine
end

