-- ==== Sys2Proof/Machine/Reference.lean ====
section
/-! DEFINITION. The function the hardware computes (00_scope.md R12), written whole and apart from the datapath. No step uses it: correctness is stated
against it (40_commands.md R121). -/

namespace Sys2Proof.Machine

/-- The three channels R12 gives the pixel `(row, col)` of the frame `data`. -/
def refPixel (w h : Nat) (data : List Byte) (row col : Nat) : Rgb :=
  let Y : Int := (data.getD (row * w + col) 0).toNat
  let U : Int := (data.getD (w * h + row / 2 * (w / 2) + col / 2) 0).toNat
  let V : Int := (data.getD (w * h + w / 2 * (h / 2) + row / 2 * (w / 2) + col / 2) 0).toNat
  let c := Y - 16
  let d := U - 128
  let e := V - 128
  ⟨clamp8 ((298 * c + 409 * e + 128) / 256), clamp8 ((298 * c - 100 * d - 208 * e + 128) / 256),
    clamp8 ((298 * c + 516 * d + 128) / 256)⟩

/-- `convert(W, H, A, data)` (R12): the pixels in row-major order, each `R`, `G`, `B` and in RGBA the byte 255. -/
def convert (w h : Nat) (a : Bool) (data : List Byte) : List Byte :=
  (List.range h).flatMap fun row => (List.range w).flatMap fun col =>
    let p := refPixel w h data row col
    if a = true then [p.r, p.g, p.b, 255] else [p.r, p.g, p.b]

end Sys2Proof.Machine
end

