-- ==== Sys2Proof/Safety.lean ====
section
/-! DEFINITION. What claims are stated in: the invariants of the state (R25, R27, R30), when a conversion command is accepted (R109, R224), and the moves
under which a conversion is correct (R121, R122). -/

namespace Sys2Proof.Machine

/-- The invariants of `STATUS` (10_state.md R30). Its reserved bits are no part of the state. -/
structure State.StatusInv (s : State) : Prop where
  busy_not_done : ¬(s.status.busy = true ∧ s.status.done = true)
  busy_not_err : ¬(s.status.busy = true ∧ s.status.err = true)
  cause_zero : s.status.err = false → s.status.cause = 0
  cause_code : s.status.err = true → 1 ≤ s.status.cause.toNat ∧ s.status.cause.toNat ≤ 6

/-- What holds of the latched geometry and of `pos` (10_state.md R25, R27). -/
structure State.FrameInv (s : State) : Prop where
  width_ok : s.status.busy = true → 0 < s.wLat.toNat ∧ s.wLat.toNat % 2 = 0
  height_ok : s.status.busy = true → 0 < s.hLat.toNat ∧ s.hLat.toNat % 2 = 0
  input_fits : s.status.busy = true → fsize s.wLat.toNat s.hLat.toNat ≤ Config.ibufBytes
  output_fits : s.status.busy = true → osize s.wLat.toNat s.hLat.toNat s.status.alpha ≤ Config.obufBytes
  pos_in : s.status.busy = true → s.pos.row.toNat < s.hLat.toNat ∧ s.pos.col.toNat < s.wLat.toNat
  pos_rest : s.status.busy = false → s.pos = ⟨0, 0⟩

/-- Both buffers are in canonical form and list only offsets that exist (20_memory.md R50). -/
structure State.BufferInv (s : State) : Prop where
  ibuf_wf : Memory.wf s.ibuf = true
  obuf_wf : Memory.wf s.obuf = true
  ibuf_within : Memory.within Config.ibufBytes s.ibuf = true
  obuf_within : Memory.within Config.obufBytes s.obuf = true

/-- All the invariants. -/
structure State.Inv (s : State) : Prop where
  status : s.StatusInv
  frame : s.FrameInv
  buffers : s.BufferInv

/-- A conversion command with format bit `a` is accepted (40_commands.md R109): `ERR = 0`, not BUSY, dimensions positive and even, the frame
fits, and `IN_LEN` is its size. -/
structure CanConvert (a : Bool) (s : State) : Prop where
  no_err : s.status.err = false
  not_busy : s.status.busy = false
  width_pos : 0 < s.width.toNat
  height_pos : 0 < s.height.toNat
  width_even : s.width.toNat % 2 = 0
  height_even : s.height.toNat % 2 = 0
  input_fits : s.width.toNat * s.height.toNat * 3 / 2 ≤ Config.ibufBytes
  output_fits : s.width.toNat * s.height.toNat * (3 + a.toNat) ≤ Config.obufBytes
  length_ok : s.inLen.toNat = s.width.toNat * s.height.toNat * 3 / 2

/-- The conversion command of a format bit (R110, R111). -/
def convCommand (a : Bool) : Instr := if a = true then .convRgba else .convRgb

/-- HOST does nothing that R121 excludes: no write to an input byte below `n`, no word to `CMD` but `NOP`'s, and no access that is refused. -/
def txnQuiet (n : Nat) (t : Txn) : Bool :=
  txnDefined t && match t with
  | .wr _ off v => decide (off ≠ 0) || decide (v = 0)
  | .stbIbuf off _ => decide (n ≤ off)
  | _ => true

/-- A move R121 allows during a conversion of an input frame of `n` bytes: no reset, and `txnQuiet` for HOST's. -/
def moveQuiet (n : Nat) : Move → Bool
  | .host t => txnQuiet n t
  | .engine => true
  | .reset => false

/-- How many of the moves are ENGINE's. -/
def engineMoves (ms : List Move) : Nat := ms.count .engine

/-- The pixels of a frame in raster order (40_commands.md R115). -/
def rasterPixels (w h : Nat) : List (Nat × Nat) :=
  (List.range h).flatMap fun row => (List.range w).map fun col => (row, col)

/-- Convert the listed pixels of the latched frame of `s`, in that order, into `u` (R117: any order may be taken). -/
def storePixels (s : State) (l : List (Nat × Nat)) (u : State) : State :=
  l.foldl (fun u p => pstore u p.1 p.2 (pixelAt s p.1 p.2)) u

/-- The move to come is a hardware reset. -/
def State.resetNext (s : State) : Bool := s.inbox.head? == some .reset

/-- The move to come writes the word `w` to `CMD`. -/
def State.issues (s : State) (w : Word) : Bool := s.inbox.head? == some (issue w)

end Sys2Proof.Machine
end

