-- ==== Sys2Proof/Certificates/Slice0/Obligations.lean ====
section
/-! DEFINITION. The statements for the provers, in the order of OBLIGATIONS.json. A statement about a byte the spec calls unspecified holds for every
value of it: those bytes are opaque (logs 3 and 4). -/

open Sys2Proof Sys2Proof.Machine

/-! ## Encoding -/

/-- R81: exactly four words are commands; every other word is illegal. -/
def Obligations.ExactlyFourWordsAreCommands : Prop :=
  decode 0x00000000 = .command .nop ∧ decode 0x00000001 = .command .convRgb ∧
    decode 0x00000011 = .command .convRgba ∧ decode 0x0000000F = .command .srst ∧
    ∀ w : Word, w ≠ 0x00000000 → w ≠ 0x00000001 → w ≠ 0x00000011 → w ≠ 0x0000000F →
      ∃ why, decode w = .illegal why

/-- R80, R81: decoding and encoding agree. A command's word decodes to it, and only its word does, also laid out as bytes; a word is a command exactly
when its fields meet format `C`; no bit of a word is lost in its fields. -/
def Obligations.DecodeOfWordIffEncoded : Prop :=
  (∀ (w : Word) (i : Instr), decode w = .command i ↔ w = encode i) ∧
  (∀ w : Word, (∃ i, decode w = .command i) ↔ (FormatC.ofWord w).wellFormed = true) ∧
  (∀ w : Word, (FormatC.ofWord w).toWord = w) ∧ (∀ f : FormatC, FormatC.ofWord f.toWord = f) ∧
  ∀ (w : Word) (i : Instr), decodeBytes (bytesOfWord w) = .command i ↔ w = encode i

/-- R89: the illegal words are those with a reserved bit, a reserved `OP`, or `A = 1` without `OP = 0x1`; written to `CMD` such a word faults with
`ILLEGAL_CMD` while `ERR = 0` and is ignored while `ERR = 1`. -/
def Obligations.IllegalWordsFaultOrAreIgnored : Prop :=
  (∀ w : Word, (∃ why, decode w = .illegal why) ↔
    w.toNat / 32 ≠ 0 ∨ (2 ≤ w.toNat % 16 ∧ w.toNat % 16 ≤ 14) ∨ (w.toNat / 16 % 2 = 1 ∧ w.toNat % 16 ≠ 1)) ∧
  ∀ (s : State) (w : Word) (rest : List Move), (∃ why, decode w = .illegal why) → s.inbox = issue w :: rest →
    (s.status.err = false →
      step s = .next (enterFault .illegalCmd { s with inbox := rest, reply := .none })) ∧
    (s.status.err = true → step s = .next { s with inbox := rest, reply := .none })

/-- R83: the opcode map. The reserved `OP` values give no command, the all-zero word is `NOP`, `SRST` has all ones in `OP` and differs from `NOP` in
four bits, from `CONV.RGB` in three and from `CONV.RGBA` in four, so that no single-bit change of another command's word produces it. -/
def Obligations.SoftResetIsNoSingleBitError : Prop :=
  let distance (x y : Word) : Nat := ((List.range 32).filter fun k => (x ^^^ y).getLsbD k).length
  ((fieldsOf .nop).op = 0x0 ∧ (fieldsOf .convRgb).op = 0x1 ∧ (fieldsOf .convRgba).op = 0x1 ∧ (fieldsOf .srst).op = 0xF) ∧
  (∀ w : Word, 2 ≤ w.toNat % 16 → w.toNat % 16 ≤ 14 → ∃ why, decode w = .illegal why) ∧
  encode .nop = 0x00000000 ∧
  distance (encode .srst) (encode .nop) = 4 ∧ distance (encode .srst) (encode .convRgb) = 3 ∧
  distance (encode .srst) (encode .convRgba) = 4 ∧
  ∀ (i : Instr) (k : Nat), i ≠ .srst → encode i ^^^ (1#32 <<< k) ≠ encode .srst

/-- R54: the byte at offset `k` of a word holds its bits `8k+7:8k`; putting the bytes together again gives the word. -/
def Obligations.WordBytesAreLittleEndian : Prop :=
  ∀ w : Word, bytesOfWord w = (List.range 4).map (fun k => BitVec.ofNat 8 (w.toNat / 256 ^ k)) ∧
    (∀ b0 b1 b2 b3, bytesOfWord w = [b0, b1, b2, b3] → wordOfBytes b0 b1 b2 b3 = w) ∧
    littleEndian (bytesOfWord w) = w.toNat

/-! ## A step runs the decoded instruction -/

/-- R28, R107: a write of a command's word to `CMD` is the execution of the command, inside the same step; around it the step takes the move off
the list of moves to come and forgets the last reply. -/
def Obligations.StepRunsDecodedCommand : Prop :=
  ∀ (s : State) (w : Word) (i : Instr) (rest : List Move), decode w = .command i → s.inbox = issue w :: rest →
    step s = exec i { s with inbox := rest, reply := .none }

/-- The word put where the next step takes its instruction is run by that step (log 10). -/
def Obligations.FetchedWordRunsNext : Prop :=
  ∀ (s : State) (w : Word) (i : Instr), decode w = .command i →
    decodeTableWord 32 w.toNat = some i ∧ step (s.withFetchWord 32 w.toNat) = exec i { s with reply := .none }

/-! ## The commands -/

/-- R108: `NOP`, word `0x0000_0000`, changes no register, flag, buffer byte or `pos`, in any phase; `0x0000_0010` is not `NOP` but illegal. -/
def Obligations.NopChangesNothing : Prop :=
  decode 0x00000000 = .command .nop ∧ (∃ why, decode 0x00000010 = .illegal why) ∧ ∀ s : State, exec .nop s = .next s

/-- R109 (acceptance), R110, R111: when every check passes, `CONV.RGB` and `CONV.RGBA` latch the geometry and the format, clear `DONE`, set `BUSY`
and put `pos` at (0, 0), and change nothing else. -/
def Obligations.AcceptedConversionStarts : Prop :=
  ∀ (a : Bool) (s : State), CanConvert a s →
    exec (if a = true then .convRgba else .convRgb) s =
      .next { s with
        wLat := s.width
        hLat := s.height
        status := ⟨true, false, false, s.status.cause, a⟩
        pos := ⟨0, 0⟩ }

/-- R109 (checks), R199: when a check fails, the first one that fails decides the cause, and the command does what fault entry does. -/
def Obligations.FirstFailedCheckDecidesCause : Prop :=
  ∀ (a : Bool) (s : State), s.status.err = false →
    let run := exec (if a = true then .convRgba else .convRgb) s
    let w := s.width.toNat
    let h := s.height.toNat
    (s.status.busy = true → run = .next (enterFault .busy s)) ∧
    (s.status.busy = false → (w = 0 ∨ h = 0) → run = .next (enterFault .dimZero s)) ∧
    (s.status.busy = false → w ≠ 0 → h ≠ 0 → (w % 2 = 1 ∨ h % 2 = 1) → run = .next (enterFault .dimOdd s)) ∧
    (s.status.busy = false → w ≠ 0 → h ≠ 0 → w % 2 = 0 → h % 2 = 0 →
      (w * h * 3 / 2 > Config.ibufBytes ∨ w * h * (3 + a.toNat) > Config.obufBytes) →
      run = .next (enterFault .capacity s)) ∧
    (s.status.busy = false → w ≠ 0 → h ≠ 0 → w % 2 = 0 → h % 2 = 0 →
      w * h * 3 / 2 ≤ Config.ibufBytes → w * h * (3 + a.toNat) ≤ Config.obufBytes →
      s.inLen.toNat ≠ w * h * 3 / 2 → run = .next (enterFault .lenMismatch s))

/-- R200: what `raise Fault(cause)` does, and that it leaves the rest as it was: phase ERROR, in which ENGINE has no step and every command but
`SRST` is ignored. When BUSY the bytes of the aborted frame are not spoken of: they are unspecified. -/
def Obligations.FaultEntryEffect : Prop :=
  ∀ (c : Cause) (s : State), Memory.wf s.obuf = true →
    let t := enterFault c s
    t.status.err = true ∧ t.status.cause = causeCode c ∧ t.status.busy = false ∧ t.pos = ⟨0, 0⟩ ∧
    t.status.done = s.status.done ∧ t.status.alpha = s.status.alpha ∧
    t.width = s.width ∧ t.height = s.height ∧ t.inLen = s.inLen ∧ t.irqEn = s.irqEn ∧
    t.wLat = s.wLat ∧ t.hLat = s.hLat ∧ (∀ k, ibufByte t k = ibufByte s k) ∧
    (∀ k, (s.status.busy = false ∨ osize s.wLat.toNat s.hLat.toNat s.status.alpha ≤ k) → obufByte t k = obufByte s k) ∧
    irqOf t = ((s.status.done && s.irqEn.doneIe) || s.irqEn.errIe) ∧ phaseOf t.status = .error ∧
    engineMove t = .next t ∧ (∀ i, i ≠ .srst → exec i t = .next t) ∧ execIllegal t = .next t

/-- R190: the cause codes. -/
def Obligations.CauseCodes : Prop :=
  causeCode .illegalCmd = 1 ∧ causeCode .busy = 2 ∧ causeCode .dimZero = 3 ∧ causeCode .dimOdd = 4 ∧
    causeCode .capacity = 5 ∧ causeCode .lenMismatch = 6

/-- R107: in phase ERROR every command but `SRST` is ignored. -/
def Obligations.CommandsIgnoredInError : Prop :=
  ∀ (i : Instr) (s : State), s.status.err = true → i ≠ .srst → exec i s = .next s

/-- R112: `SRST`, word `0x0000_000F` (`0x0000_001F` is illegal), in every phase, zeroes the registers, the flags, the latches and `pos`; `IBUF` is unchanged, and `OBUF` outside the bytes of an
aborted frame. -/
def Obligations.SoftResetEffect : Prop :=
  decode 0x0000000F = .command .srst ∧ (∃ why, decode 0x0000001F = .illegal why) ∧
  ∀ s : State, Memory.wf s.obuf = true → ∃ t, exec .srst s = .next t ∧
    t.status = ⟨false, false, false, 0, false⟩ ∧ t.width = 0 ∧ t.height = 0 ∧ t.inLen = 0 ∧ t.irqEn = ⟨false, false⟩ ∧
    t.wLat = 0 ∧ t.hLat = 0 ∧ t.pos = ⟨0, 0⟩ ∧ (∀ k, ibufByte t k = ibufByte s k) ∧
    (∀ k, (s.status.busy = false ∨ osize s.wLat.toNat s.hLat.toNat s.status.alpha ≤ k) → obufByte t k = obufByte s k)

/-- The frame of `NOP`, `CONV.RGB` and `CONV.RGBA` (R108, R109): what no outcome of them changes. The flags and `pos` are the exceptions R109 and R200
name, and `w_lat`, `h_lat`, `ALPHA` change only on acceptance. -/
def Obligations.CommandFrame : Prop :=
  ∀ (i : Instr) (s t : State), i ≠ .srst → Memory.wf s.obuf = true → exec i s = .next t →
    t.width = s.width ∧ t.height = s.height ∧ t.inLen = s.inLen ∧ t.irqEn = s.irqEn ∧
    (∀ k, ibufByte t k = ibufByte s k) ∧
    (∀ k, (s.status.busy = false ∨ osize s.wLat.toNat s.hLat.toNat s.status.alpha ≤ k) → obufByte t k = obufByte s k) ∧
    ((∃ a, i = convCommand a ∧ CanConvert a s) ∨
      (t.wLat = s.wLat ∧ t.hLat = s.hLat ∧ t.status.alpha = s.status.alpha ∧ t.status.done = s.status.done)) ∧
    t.inbox = s.inbox ∧ t.reply = s.reply

/-! ## HOST transactions -/

/-- R100, R35: the value of every register read; no read changes anything but the reply HOST gets. -/
def Obligations.RegisterReadValues : Prop :=
  ∀ (s : State) (off : Nat) (rest : List Move), off % 4 = 0 → off < 256 → s.inbox = .host (.rd 32 off) :: rest →
    ∃ v : Word, step s = .next { s with inbox := rest, reply := .word v } ∧
      (off = 0x00 → v = 0) ∧
      (off = 0x04 → v.toNat = s.status.busy.toNat + 2 * s.status.done.toNat + 4 * s.status.err.toNat +
        16 * s.status.cause.toNat + 256 * s.status.alpha.toNat) ∧
      (off = 0x08 → v.toNat = s.width.toNat) ∧
      (off = 0x0C → v.toNat = s.height.toNat) ∧
      (off = 0x10 → v = s.inLen) ∧
      (off = 0x14 → v.toNat = 2 * s.irqEn.doneIe.toNat + 4 * s.irqEn.errIe.toNat) ∧
      (0x18 ≤ off → v = 0)

/-- R101, R35: the effect of every register write other than one to `CMD`. -/
def Obligations.RegisterWriteEffects : Prop :=
  ∀ (s : State) (off : Nat) (v : Word) (rest : List Move), off % 4 = 0 → off < 256 → off ≠ 0x00 →
    s.inbox = .host (.wr 32 off v) :: rest →
    let s' : State := { s with inbox := rest, reply := .none }
    (off = 0x04 → step s = .next { s' with
      status := ⟨s.status.busy, s.status.done && !v.getLsbD 1, s.status.err, s.status.cause, s.status.alpha⟩ }) ∧
    (off = 0x08 → step s = .next { s' with width := BitVec.ofNat 16 v.toNat }) ∧
    (off = 0x0C → step s = .next { s' with height := BitVec.ofNat 16 v.toNat }) ∧
    (off = 0x10 → step s = .next { s' with inLen := v }) ∧
    (off = 0x14 → step s = .next { s' with irqEn := ⟨v.getLsbD 1, v.getLsbD 2⟩ }) ∧
    (0x18 ≤ off → step s = .next s')

/-- R102, R104: a buffer byte read returns the byte and changes nothing else. -/
def Obligations.BufferReadValues : Prop :=
  ∀ (s : State) (off : Nat) (rest : List Move),
    (off < Config.ibufBytes → s.inbox = .host (.ldbIbuf off) :: rest →
      step s = .next { s with inbox := rest, reply := .byte (ibufByte s off) }) ∧
    (off < Config.obufBytes → s.inbox = .host (.ldbObuf off) :: rest →
      step s = .next { s with inbox := rest, reply := .byte (obufByte s off) })

/-- R103, R105: a HOST write to `IBUF` puts the byte at its offset and leaves every other byte and all other state; a HOST write to `OBUF` does
nothing. -/
def Obligations.BufferWriteEffects : Prop :=
  ∀ (s : State) (off : Nat) (b : Byte) (rest : List Move), Memory.wf s.ibuf = true →
    (off < Config.ibufBytes → s.inbox = .host (.stbIbuf off b) :: rest →
      ∃ t, step s = .next t ∧ ibufByte t off = b ∧ (∀ k, k ≠ off → ibufByte t k = ibufByte s k) ∧
        t = { s with ibuf := t.ibuf, inbox := rest, reply := .none }) ∧
    (off < Config.obufBytes → s.inbox = .host (.stbObuf off b) :: rest →
      step s = .next { s with inbox := rest, reply := .none })

/-- R55: wide accesses, performed as their single bytes. A write of `n` bytes to `IBUF` and the reads of the same bytes give back the number written,
least significant byte at the lowest offset, and no other byte of `IBUF` changes. A write of `n` bytes to `OBUF` is ignored byte by byte, and the reads
of `n` bytes of `OBUF` return them. None needs alignment. -/
def Obligations.WideAccessIsByteAccesses : Prop :=
  (∀ (s : State) (a n v : Nat), Memory.wf s.ibuf = true → a + n ≤ Config.ibufBytes →
    ∃ t : State, Host.Core.run core n ({ s with inbox := (wideStoreIbuf a n v).map Move.host } : State) = .next t ∧
      littleEndian (readIbuf t a n) = v % 256 ^ n ∧ (∀ k, (k < a ∨ a + n ≤ k) → ibufByte t k = ibufByte s k) ∧
      ∀ k, k < n → ∃ u : State,
        step { t with inbox := ((wideLoadIbuf a n).drop k).map Move.host } = .next u ∧ u.reply = .byte (ibufByte t (a + k)) ∧
          u.inbox = ((wideLoadIbuf a n).drop (k + 1)).map Move.host) ∧
  ∀ (s : State) (a n v : Nat), a + n ≤ Config.obufBytes →
    (∃ t : State, Host.Core.run core n ({ s with inbox := (wideStoreObuf a n v).map Move.host } : State) = .next t ∧
      t = { s with inbox := [], reply := t.reply }) ∧
    ∀ k, k < n → ∃ u : State,
      step { s with inbox := ((wideLoadObuf a n).drop k).map Move.host } = .next u ∧ u.reply = .byte (obufByte s (a + k)) ∧
        u.inbox = ((wideLoadObuf a n).drop (k + 1)).map Move.host

/-- R56, R58: an access the block does not define is refused. That a refused access ends the step under a name, with no next state, is the model's reading
of "a model gives HOST no such move" (log 6, DEDUCED). R106: every other transaction is performed, in every state. -/
def Obligations.UndefinedAccessesAreRefused : Prop :=
  ∀ (s : State) (rest : List Move),
    (∀ bits off, s.inbox = .host (.rd bits off) :: rest → (bits ≠ 32 ∨ off % 4 ≠ 0 ∨ 256 ≤ off) →
      step s = .refused .registerAccess) ∧
    (∀ bits off v, s.inbox = .host (.wr bits off v) :: rest → (bits ≠ 32 ∨ off % 4 ≠ 0 ∨ 256 ≤ off) →
      step s = .refused .registerAccess) ∧
    (∀ off, s.inbox = .host (.ldbIbuf off) :: rest → Config.ibufBytes ≤ off → step s = .refused .ibufOffset) ∧
    (∀ off b, s.inbox = .host (.stbIbuf off b) :: rest → Config.ibufBytes ≤ off → step s = .refused .ibufOffset) ∧
    (∀ off, s.inbox = .host (.ldbObuf off) :: rest → Config.obufBytes ≤ off → step s = .refused .obufOffset) ∧
    (∀ off b, s.inbox = .host (.stbObuf off b) :: rest → Config.obufBytes ≤ off → step s = .refused .obufOffset) ∧
    (∀ t, s.inbox = .host t :: rest → txnDefined t = true → ∃ u, step s = .next u)

/-- R106: HOST cannot read `w_lat`, `h_lat` or `pos`: whatever they are, a transaction returns the same. -/
def Obligations.HiddenStateIsNotReadable : Prop :=
  ∀ (s u u' : State) (w h : Dim) (p : Pos) (t : Txn) (rest : List Move),
    step { s with inbox := .host t :: rest } = .next u →
    step { s with wLat := w, hLat := h, pos := p, inbox := .host t :: rest } = .next u' → u.reply = u'.reply

/-! ## Status and the interrupt output -/

/-- R95: under the invariants of R30, the values `STATUS` can be read as. -/
def Obligations.ReadableStatusValues : Prop :=
  ∀ s : State, s.StatusInv → ∃ n, 1 ≤ n ∧ n ≤ 6 ∧
    (statusWord s.status).toNat ∈
      [0x000, 0x100, 0x001, 0x101, 0x002, 0x102, 16 * n + 4, 0x100 + 16 * n + 4, 16 * n + 6, 0x100 + 16 * n + 6]

/-- R38, R34: the formula of `irq`; it is 1 exactly when an enable bit of `IRQ_EN` meets its flag of `STATUS`, at the same bit position. -/
def Obligations.InterruptOutputFollowsState : Prop :=
  ∀ s : State, irqOf s = ((s.status.done && s.irqEn.doneIe) || (s.status.err && s.irqEn.errIe)) ∧
    irqOf s = decide (statusWord s.status &&& irqEnWord s.irqEn ≠ 0)

/-! ## Reset -/

/-- R42, R222: after reset every register, flag, latch and `pos` is zero, `irq` is 0, the phase is IDLE, and nothing happens until HOST acts. That
each buffer byte is the free value is logs 3 and 4. -/
def Obligations.ResetState : Prop :=
  let s := State.reset
  statusWord s.status = 0 ∧ s.width = 0 ∧ s.height = 0 ∧ s.inLen = 0 ∧ irqEnWord s.irqEn = 0 ∧ s.wLat = 0 ∧ s.hLat = 0 ∧
    s.pos = ⟨0, 0⟩ ∧ irqOf s = false ∧ phaseOf s.status = .idle ∧
    (∀ k, Memory.get? s.ibuf k = none ∧ Memory.get? s.obuf k = none) ∧ step s = .next s

/-- R220, R221, R42: a hardware reset, in any phase, leaves the registers, flags, latches and `pos` at the values `SRST` leaves, and no byte of
either buffer written. -/
def Obligations.HardwareResetEffect : Prop :=
  ∀ (s : State) (rest : List Move), s.inbox = .reset :: rest → ∃ t u, step s = .next t ∧ exec .srst s = .next u ∧
    t.status = u.status ∧ t.width = u.width ∧ t.height = u.height ∧ t.inLen = u.inLen ∧ t.irqEn = u.irqEn ∧
    t.wLat = u.wLat ∧ t.hLat = u.hLat ∧ t.pos = u.pos ∧ t.status = State.reset.status ∧ t.pos = State.reset.pos ∧
    (∀ k, Memory.get? t.ibuf k = none ∧ Memory.get? t.obuf k = none) ∧ t.inbox = rest

/-- The invariants hold after reset. -/
def Obligations.ResetMeetsInvariants : Prop := State.reset.Inv

/-! ## Invariants every step keeps -/

/-- R30: the invariants of `STATUS` hold after every step from any state in which they hold; the reserved bits read 0. -/
def Obligations.StepKeepsStatusInvariants : Prop :=
  ∀ s t : State, s.StatusInv → step s = .next t →
    t.StatusInv ∧ (statusWord t.status).getLsbD 3 = false ∧ (statusWord t.status).toNat / 512 = 0

/-- R25, R27: the latched geometry is legal and fits and `pos` is a pixel of it whenever BUSY, and `pos` is (0, 0) otherwise, after every step from
any state in which this holds. -/
def Obligations.StepKeepsFrameInvariants : Prop :=
  ∀ s t : State, s.FrameInv → step s = .next t → t.FrameInv

/-- All the invariants together, the canonical form of both buffers among them. -/
def Obligations.StepKeepsInvariants : Prop := ∀ s t : State, s.Inv → step s = .next t → t.Inv

/-! ## Whole-machine rules -/

/-- R201: no step faults; and only a write to `CMD` can set `ERR`. -/
def Obligations.OnlyCommandWritesFault : Prop :=
  (∀ (s : State) (r : Fault), s.Inv → step s ≠ .fault r) ∧
  ∀ s t : State, step s = .next t → s.resetNext = false → (∀ w, s.issues w = false) → t.status.err = s.status.err

/-- R202: `SRST` and hardware reset are the only exits from phase ERROR, and both restore the register values of reset; until then the first cause
is kept and `OBUF` stays as it is. -/
def Obligations.ErrorLeftOnlyByReset : Prop :=
  (∀ s t : State, s.StatusInv → s.status.err = true → step s = .next t → s.resetNext = false →
    s.issues 0x0000000F = false →
    t.status.err = true ∧ t.status.cause = s.status.cause ∧ t.status.busy = false ∧ t.obuf = s.obuf) ∧
  ∀ s t : State, step s = .next t → (s.resetNext = true ∨ s.issues 0x0000000F = true) →
    t.status = State.reset.status ∧ t.width = 0 ∧ t.height = 0 ∧ t.inLen = 0 ∧ t.irqEn = ⟨false, false⟩ ∧
    t.wLat = 0 ∧ t.hLat = 0 ∧ t.pos = ⟨0, 0⟩

/-- R36: only a HOST write to its offset (or a hardware reset) changes a byte of `IBUF`. -/
def Obligations.InputBufferChangesOnlyByHost : Prop :=
  ∀ (s t : State) (k : Nat), Memory.wf s.ibuf = true → step s = .next t → s.resetNext = false →
    (∀ b, s.inbox.head? ≠ some (.host (.stbIbuf k b))) → ibufByte t k = ibufByte s k

/-- R37, R67: while no conversion runs, no step but a hardware reset changes a byte of `OBUF`: not a HOST write, not a fault, not `SRST`. -/
def Obligations.OutputBufferStableWhenNotBusy : Prop :=
  ∀ (s t : State) (k : Nat), s.status.busy = false → step s = .next t → s.resetNext = false → obufByte t k = obufByte s k

/-- R37: a step writes no byte of `OBUF` at or above `OSIZE` of the latched frame. -/
def Obligations.OutputBufferTailIsUntouched : Prop :=
  ∀ (s t : State) (k : Nat), s.Inv → step s = .next t → s.resetNext = false →
    osize s.wLat.toNat s.hLat.toNat s.status.alpha ≤ k → obufByte t k = obufByte s k

/-- R25: while a conversion goes on its geometry and format stay as latched, whatever HOST writes to the registers. -/
def Obligations.RunningConversionKeepsGeometry : Prop :=
  ∀ s t : State, s.status.busy = true → step s = .next t → t.status.busy = true →
    t.wLat = s.wLat ∧ t.hLat = s.hLat ∧ t.status.alpha = s.status.alpha

/-- R39, R109: `BUSY` is set only by the acceptance of a conversion command. -/
def Obligations.BusySetOnlyByAcceptance : Prop :=
  ∀ s t : State, s.status.busy = false → step s = .next t → t.status.busy = true →
    ∃ a, s.issues (encode (convCommand a)) = true ∧ CanConvert a s

/-- R39, R116: `DONE` is set only by the last pixel step of a conversion. -/
def Obligations.DoneSetOnlyByLastPixel : Prop :=
  ∀ s t : State, s.status.done = false → step s = .next t → t.status.done = true →
    s.status.busy = true ∧ s.pos.row.toNat + 1 = s.hLat.toNat ∧ s.pos.col.toNat + 1 = s.wLat.toNat ∧
      (s.inbox = [] ∨ s.inbox.head? = some .engine) ∧ t.status.busy = false

/-! ## ENGINE -/

/-- R113: with `BUSY = 0` ENGINE performs nothing. With `BUSY = 1` it takes a step, also when no move is to come. -/
def Obligations.EngineStepsExactlyWhenBusy : Prop :=
  ∀ (s : State) (rest : List Move), (s.inbox = .engine :: rest ∨ (s.inbox = [] ∧ rest = [])) →
    (s.status.busy = false → step s = .next { s with inbox := rest }) ∧
    (s.Inv → s.status.busy = true → ∃ t, step s = .next t ∧ t ≠ { s with inbox := rest })

/-- R114, R131 to R135, R182: a pixel step stores the transform of the pixel's three samples at the pixel's place, alpha 255 in RGBA, and leaves
every other byte of `OBUF`, all of `IBUF` and every register and latch. -/
def Obligations.PixelStepConvertsOnePixel : Prop :=
  ∀ (s : State) (rest : List Move), s.Inv → s.status.busy = true → s.inbox = .engine :: rest →
    let w := s.wLat.toNat
    let h := s.hLat.toNat
    let row := s.pos.row.toNat
    let col := s.pos.col.toNat
    let p := (row * w + col) * (3 + s.status.alpha.toNat)
    let rgb := csc (ibufByte s (row * w + col)) (ibufByte s (w * h + (row / 2 * (w / 2) + col / 2)))
      (ibufByte s (w * h + w / 2 * (h / 2) + (row / 2 * (w / 2) + col / 2)))
    ∃ t, step s = .next t ∧ obufByte t p = rgb.r ∧ obufByte t (p + 1) = rgb.g ∧ obufByte t (p + 2) = rgb.b ∧
      (s.status.alpha = true → obufByte t (p + 3) = 255) ∧
      (∀ k, (k < p ∨ p + 3 + s.status.alpha.toNat ≤ k) → obufByte t k = obufByte s k) ∧
      (∀ k, ibufByte t k = ibufByte s k) ∧
      t.width = s.width ∧ t.height = s.height ∧ t.inLen = s.inLen ∧ t.irqEn = s.irqEn ∧ t.wLat = s.wLat ∧ t.hLat = s.hLat ∧
      t.status.alpha = s.status.alpha ∧ t.status.err = s.status.err ∧ t.status.cause = s.status.cause ∧ t.reply = s.reply

/-- R115, R116, R27: the position after a pixel step, and the flags of the last one. -/
def Obligations.SequencerWalksRasterOrder : Prop :=
  ∀ (s : State) (rest : List Move), s.Inv → s.status.busy = true → s.inbox = .engine :: rest →
    let w := s.wLat.toNat
    let h := s.hLat.toNat
    let row := s.pos.row.toNat
    let col := s.pos.col.toNat
    ∃ t, step s = .next t ∧
      (col + 1 < w → t.pos.row.toNat = row ∧ t.pos.col.toNat = col + 1 ∧ t.status = s.status) ∧
      (col + 1 = w → row + 1 < h → t.pos.row.toNat = row + 1 ∧ t.pos.col.toNat = 0 ∧ t.status = s.status) ∧
      (col + 1 = w → row + 1 = h →
        t.pos = ⟨0, 0⟩ ∧ t.status.busy = false ∧ t.status.done = true ∧
          t.wLat = s.wLat ∧ t.hLat = s.hLat ∧ t.status.alpha = s.status.alpha ∧ (s.irqEn.doneIe = true → irqOf t = true))

/-- R61: the bounds of ENGINE's addresses. -/
def Obligations.EngineAddressesAreInRange : Prop :=
  ∀ (w h row col : Nat) (a : Bool), w % 2 = 0 → h % 2 = 0 → row < h → col < w →
    yOffset w row col < ysize w h ∧
    (ubase w h ≤ uOffset w h (row / 2) (col / 2) ∧ uOffset w h (row / 2) (col / 2) < vbase w h) ∧
    (vbase w h ≤ vOffset w h (row / 2) (col / 2) ∧ vOffset w h (row / 2) (col / 2) < fsize w h) ∧
    (∀ k, k < bpp a → poff w row col a + k < osize w h a) ∧ fsize w h = w * h * 3 / 2

/-- R137: the pixels that read the chroma element `[r][k]` are the four of its 2 x 2 block and no others. -/
def Obligations.ChromaElementServesItsBlock : Prop :=
  ∀ (w h r k row col : Nat), w % 2 = 0 → h % 2 = 0 → r < h / 2 → k < w / 2 → row < h → col < w →
    ((uOffset w h (cidx row col).1 (cidx row col).2 = uOffset w h r k ↔
      (row = 2 * r ∨ row = 2 * r + 1) ∧ (col = 2 * k ∨ col = 2 * k + 1)) ∧
    (vOffset w h (cidx row col).1 (cidx row col).2 = vOffset w h r k ↔
      (row = 2 * r ∨ row = 2 * r + 1) ∧ (col = 2 * k ∨ col = 2 * k + 1)))

/-- R137: a change of one chroma byte changes no pixel outside its block, and gives the four pixels of the block the same chroma. -/
def Obligations.ChromaChangeStaysInItsBlock : Prop :=
  ∀ (s : State) (r k row col : Nat) (b : Byte), Memory.wf s.ibuf = true →
    s.wLat.toNat % 2 = 0 → s.hLat.toNat % 2 = 0 → r < s.hLat.toNat / 2 → k < s.wLat.toNat / 2 →
    row < s.hLat.toNat → col < s.wLat.toNat →
    let t := storeIbuf s (uOffset s.wLat.toNat s.hLat.toNat r k) b
    let t' := storeIbuf s (vOffset s.wLat.toNat s.hLat.toNat r k) b
    (¬(row / 2 = r ∧ col / 2 = k) → pixelAt t row col = pixelAt s row col ∧ pixelAt t' row col = pixelAt s row col) ∧
    (row / 2 = r → col / 2 = k →
      pixelAt t row col = csc (yfetch s row col) b (vfetch s r k) ∧
      pixelAt t' row col = csc (yfetch s row col) (ufetch s r k) b)

/-- R184, R86: each byte below `OSIZE` belongs to exactly one pixel of the frame, the one of index `k div BPP`. -/
def Obligations.EachOutputByteHasOneOwner : Prop :=
  ∀ (w h : Nat) (a : Bool) (k : Nat), k < osize w h a →
    ∃ row col j, row < h ∧ col < w ∧ j < bpp a ∧ poff w row col a + j = k ∧ row * w + col = k / bpp a ∧ j = k % bpp a ∧
      ∀ row' col' j', row' < h → col' < w → j' < bpp a → poff w row' col' a + j' = k → row' = row ∧ col' = col ∧ j' = j

/-! ## The colour transform -/

/-- R150 to R158: the transform by its formulas. -/
def Obligations.TransformFormulas : Prop :=
  ∀ y u v : Byte,
    let c : Int := (y.toNat : Int) - 16
    let d : Int := (u.toNat : Int) - 128
    let e : Int := (v.toNat : Int) - 128
    csc y u v = ⟨clamp8 (Int.fdiv (298 * c + 409 * e + 128) 256),
      clamp8 (Int.fdiv (298 * c - 100 * d - 208 * e + 128) 256), clamp8 (Int.fdiv (298 * c + 516 * d + 128) 256)⟩

/-- R24, R163: the ranges reached by the working values; the sums fit 19 bits. -/
def Obligations.IntermediateRanges : Prop :=
  ∀ y u v : Byte,
    let c := biasY y
    let d := biasU u
    let e := biasV v
    (-16 ≤ c ∧ c ≤ 239) ∧ (-128 ≤ d ∧ d ≤ 127) ∧ (-128 ≤ e ∧ e ≤ 127) ∧
    (-56992 ≤ macR c e ∧ macR c e ≤ 123293) ∧ (-43756 ≤ macG c d e ∧ macG c d e ≤ 110774) ∧
    (-70688 ≤ macB c d ∧ macB c d ≤ 136882) ∧
    (-223 ≤ shr8 (macR c e) ∧ shr8 (macR c e) ≤ 481) ∧ (-171 ≤ shr8 (macG c d e) ∧ shr8 (macG c d e) ≤ 432) ∧
    (-277 ≤ shr8 (macB c d) ∧ shr8 (macB c d) ≤ 534)

/-- R157: the clamp, and the same in hardware terms on 12 bits. -/
def Obligations.ClampSaturates : Prop :=
  (∀ t : Int, (t < 0 → clamp8 t = 0) ∧ (t > 255 → clamp8 t = 255) ∧ (0 ≤ t → t ≤ 255 → ((clamp8 t).toNat : Int) = t)) ∧
    ∀ t : BitVec 12, clamp8Bits t = clamp8 t.toInt

/-- R160: adding the bias before the floor shift rounds to the nearest integer, halves upward. -/
def Obligations.BiasRoundsHalvesUp : Prop := ∀ x : Int, shr8 (x + 128) = ⌊(x : ℚ) / 256 + 1 / 2⌋

/-- R161: the shift is a floor; it differs from the truncating quotient exactly when `s` is negative and no multiple of 256, and then it is one
less. -/
def Obligations.ShiftIsFloor : Prop :=
  ∀ s : Int, shr8 s = ⌊(s : ℚ) / 256⌋ ∧ (shr8 s ≠ Int.tdiv s 256 ↔ s < 0 ∧ ¬(256 ∣ s)) ∧
    (shr8 s ≠ Int.tdiv s 256 → shr8 s = Int.tdiv s 256 - 1)

/-- R162: the direction of the shift cannot be seen after the clamp. -/
def Obligations.ShiftDirectionIsInvisible : Prop := ∀ s : Int, clamp8 (shr8 s) = clamp8 (Int.tdiv s 256)

/-- R166: on the grey axis the three sums and the three channels are equal; 16 and below is black, 235 and above is white. -/
def Obligations.GreyAxis : Prop :=
  biasU 128 = 0 ∧ biasV 128 = 0 ∧
  ∀ y : Byte, macR (biasY y) 0 = 298 * ((y.toNat : Int) - 16) + 128 ∧ macG (biasY y) 0 0 = macR (biasY y) 0 ∧
    macB (biasY y) 0 = macR (biasY y) 0 ∧
    (csc y 128 128).r = (csc y 128 128).g ∧ (csc y 128 128).g = (csc y 128 128).b ∧
    (y.toNat ≤ 16 → (csc y 128 128).r = 0) ∧ (235 ≤ y.toNat → (csc y 128 128).r = 255)

/-- R167: which sample each channel depends on, and in which direction. -/
def Obligations.TransformMonotone : Prop :=
  (∀ y u u' v : Byte, (csc y u v).r = (csc y u' v).r) ∧ (∀ y u v v' : Byte, (csc y u v).b = (csc y u v').b) ∧
  (∀ y y' u v : Byte, y ≤ y' → (csc y u v).r ≤ (csc y' u v).r ∧ (csc y u v).g ≤ (csc y' u v).g ∧
    (csc y u v).b ≤ (csc y' u v).b) ∧
  (∀ y u u' v : Byte, u ≤ u' → (csc y u' v).g ≤ (csc y u v).g ∧ (csc y u v).b ≤ (csc y u' v).b) ∧
  (∀ y u v v' : Byte, v ≤ v' → (csc y u v).r ≤ (csc y u v').r ∧ (csc y u v').g ≤ (csc y u v).g) ∧
  (∃ y y' u v : Byte, (csc y u v).g ≠ (csc y' u v).g) ∧ (∃ y u u' v : Byte, (csc y u v).g ≠ (csc y u' v).g) ∧
  (∃ y u v v' : Byte, (csc y u v).g ≠ (csc y u v').g)

/-- R24, R163, R164: on the 9-, 20- and 12-bit containers the unit computes the same bytes as on exact integers: no accumulator ever wraps. -/
def Obligations.BitContainersComputeTheTransform : Prop := ∀ y u v : Byte, cscBits y u v = csc y u v

/-! ## Conversions -/

/-- R121: the correctness of a conversion. Between acceptance and its last pixel step, number `W*H`, HOST does whatever R121 allows, in any
interleaving with ENGINE; until then the conversion is not over. -/
def Obligations.ConversionComputesReferenceFunction : Prop :=
  ∀ (a : Bool) (s s1 : State) (ms : List Move), s.BufferInv → CanConvert a s → exec (convCommand a) s = .next s1 →
    let w := s.width.toNat
    let h := s.height.toNat
    (∀ m ∈ ms, moveQuiet (fsize w h) m = true) → engineMoves ms + 1 = w * h →
    (∀ n, n ≤ ms.length → ∃ u : State,
      Host.Core.run core n ({ s1 with inbox := ms ++ [.engine] } : State) = .next u ∧ u.status.busy = true) ∧
    ∃ t : State, Host.Core.run core (ms.length + 1) ({ s1 with inbox := ms ++ [.engine] } : State) = .next t ∧
      readObuf t 0 (osize w h a) = convert w h a (readIbuf s 0 (fsize w h)) ∧
      (∀ k, osize w h a ≤ k → obufByte t k = obufByte s k) ∧
      (∀ k, (∀ b, Move.host (.stbIbuf k b) ∉ ms) → ibufByte t k = ibufByte s k) ∧
      t.status.alpha = a ∧ t.status.done = true ∧ t.status.busy = false ∧ t.status.err = false

/-- R119, R118: the progress of a conversion: after `n` pixel steps, fewer than `W*H`, it is still BUSY at pixel `n`, the first `n*BPP` output bytes are
those of the reference function, and every byte from there on is as it was at acceptance. -/
def Obligations.ConversionProgress : Prop :=
  ∀ (a : Bool) (s s1 : State) (ms : List Move), s.BufferInv → CanConvert a s → exec (convCommand a) s = .next s1 →
    let w := s.width.toNat
    let h := s.height.toNat
    let n := engineMoves ms
    (∀ m ∈ ms, moveQuiet (fsize w h) m = true) → n < w * h →
    ∃ t : State, Host.Core.run core ms.length ({ s1 with inbox := ms } : State) = .next t ∧
      t.status.busy = true ∧ t.pos.row.toNat * w + t.pos.col.toNat = n ∧
      readObuf t 0 (n * bpp a) = (convert w h a (readIbuf s 0 (fsize w h))).take (n * bpp a) ∧
      (∀ k, n * bpp a ≤ k → obufByte t k = obufByte s k)

/-- R41: the output frame depends only on the geometry, the format and the input frame: not on the earlier contents of `OBUF`, the other registers,
or the interleaving. -/
def Obligations.FramesAreIndependent : Prop :=
  ∀ (a : Bool) (s s' s1 s1' t t' : State) (ms ms' : List Move), s.BufferInv → s'.BufferInv →
    CanConvert a s → CanConvert a s' → s'.width = s.width → s'.height = s.height →
    exec (convCommand a) s = .next s1 → exec (convCommand a) s' = .next s1' →
    let w := s.width.toNat
    let h := s.height.toNat
    (∀ k, k < fsize w h → ibufByte s' k = ibufByte s k) →
    (∀ m ∈ ms, moveQuiet (fsize w h) m = true) → (∀ m ∈ ms', moveQuiet (fsize w h) m = true) →
    engineMoves ms + 1 = w * h → engineMoves ms' + 1 = w * h →
    Host.Core.run core (ms.length + 1) ({ s1 with inbox := ms ++ [.engine] } : State) = .next t →
    Host.Core.run core (ms'.length + 1) ({ s1' with inbox := ms' ++ [.engine] } : State) = .next t' →
    readObuf t' 0 (osize w h a) = readObuf t 0 (osize w h a)

/-- R236, R118: from any BUSY state that meets the invariants, with HOST silent, the conversion ends after exactly the pixel steps that are left. -/
def Obligations.ConversionTerminates : Prop :=
  ∀ s : State, s.Inv → s.status.busy = true → s.inbox = [] →
    let left := s.wLat.toNat * s.hLat.toNat - (s.pos.row.toNat * s.wLat.toNat + s.pos.col.toNat)
    (∀ k, k < left → ∃ t : State, Host.Core.run core k s = .next t ∧ t.status.busy = true) ∧
    ∃ t : State, Host.Core.run core left s = .next t ∧ t.status.busy = false ∧ t.status.done = true ∧ t.status.err = false

/-- R117: the pixels of a frame processed in any order leave the frame of the reference function. -/
def Obligations.PixelOrderDoesNotMatter : Prop :=
  ∀ (s u : State) (l : List (Nat × Nat)), Memory.wf u.obuf = true → s.wLat.toNat % 2 = 0 → s.hLat.toNat % 2 = 0 →
    u.wLat = s.wLat → u.status.alpha = s.status.alpha →
    l.Perm (rasterPixels s.wLat.toNat s.hLat.toNat) →
    let w := s.wLat.toNat
    let h := s.hLat.toNat
    let a := s.status.alpha
    readObuf (storePixels s l u) 0 (osize w h a) = convert w h a (readIbuf s 0 (fsize w h)) ∧
    ∀ k, osize w h a ≤ k → obufByte (storePixels s l u) k = obufByte u k

/-- R224, R94, R121: the boot sequence. From reset, HOST loads a frame, programs the geometry and issues the command; after `W*H` pixel steps `OBUF`
holds the converted frame. -/
def Obligations.BootSequenceConvertsFrame : Prop :=
  ∀ (w h : Nat) (a : Bool) (data : List Byte), 0 < w → 0 < h → w % 2 = 0 → h % 2 = 0 → w < 65536 → h < 65536 →
    fsize w h ≤ Config.ibufBytes → osize w h a ≤ Config.obufBytes → data.length = fsize w h →
    let host := (loadFrame data ++ convertLines w h a).map Move.host
    ∃ t : State,
      Host.Core.run core (host.length + w * h) ({ State.reset with inbox := host ++ List.replicate (w * h) .engine } : State) =
        .next t ∧
      readObuf t 0 (osize w h a) = convert w h a data ∧ t.status = ⟨false, true, false, 0, a⟩
end

