-- ==== Sys2Proof/Laws/Flags.lean ====
section
/-! SUPPORT. The words of `STATUS` and `IRQ_EN` as numbers, field by field. -/

namespace Sys2Proof.Machine

theorem statusWord_toNat (st : Status) :
    (statusWord st).toNat = st.busy.toNat + 2 * st.done.toNat + 4 * st.err.toNat + 16 * st.cause.toNat +
      256 * st.alpha.toNat := by
  obtain ⟨b, d, e, c, a⟩ := st
  cases b <;> cases d <;> cases e <;> cases a <;> (revert c; decide)

theorem irqEnWord_toNat (q : IrqEn) : (irqEnWord q).toNat = 2 * q.doneIe.toNat + 4 * q.errIe.toNat := by
  obtain ⟨d, e⟩ := q
  cases d <;> cases e <;> decide

end Sys2Proof.Machine
end

