-- ==== Sys2Proof/Laws/Memory.lean ====
section
/-! SUPPORT. The laws of buffers as data: a read after a write, the canonical form kept by every operation, and the bound on offsets kept by every
operation. -/

namespace Sys2Proof.Machine

theorem Memory.get?_set (m : Memory) (a : Nat) (b : Byte) (x : Nat) (h : Memory.wf m = true) :
    Memory.get? (Memory.set m a b) x = if x = a then some b else Memory.get? m x := by
  induction m with
  | nil =>
    simp only [Memory.set, Memory.get?]
    split <;> simp
  | cons c m ih =>
    obtain ⟨k, c⟩ := c
    simp only [Memory.wf, Bool.and_eq_true] at h
    have ih := ih h.2
    simp only [Memory.set]
    rcases Nat.lt_trichotomy a k with hlt | rfl | hgt
    · rw [if_pos hlt]
      simp only [Memory.get?]
      split_ifs <;> first | rfl | omega
    · rw [if_neg (Nat.lt_irrefl a), if_pos rfl]
      simp only [Memory.get?]
      split_ifs <;> rfl
    · rw [if_neg (by omega), if_neg (by omega)]
      simp only [Memory.get?, ih]
      split_ifs <;> first | rfl | omega

/-- What holds of `a` and of every listed offset holds of every offset listed after a write at `a`. -/
theorem Memory.all_set {p : Nat → Bool} {m : Memory} (a : Nat) (b : Byte) (ha : p a = true)
    (h : (m.all fun c => p c.1) = true) : ((Memory.set m a b).all fun c => p c.1) = true := by
  induction m with
  | nil => simpa [Memory.set] using ha
  | cons c m ih =>
    rw [List.all_cons, Bool.and_eq_true] at h
    simp only [Memory.set]
    split_ifs
    · rw [List.all_cons, List.all_cons, ha, h.1, h.2]; rfl
    · rw [List.all_cons, ha, h.2]; rfl
    · rw [List.all_cons, h.1, ih h.2]; rfl

theorem Memory.above_set {k a : Nat} {m : Memory} (b : Byte) (hk : k < a) (h : Memory.above k m = true) :
    Memory.above k (Memory.set m a b) = true :=
  Memory.all_set (p := fun x => decide (k < x)) a b (decide_eq_true hk) h

theorem Memory.above_mono {k a : Nat} {m : Memory} (hk : k < a) (h : Memory.above a m = true) :
    Memory.above k m = true := by
  simp only [Memory.above, List.all_eq_true, decide_eq_true_eq] at h ⊢
  exact fun c hc => lt_trans hk (h c hc)

theorem Memory.wf_set {m : Memory} (a : Nat) (b : Byte) (h : Memory.wf m = true) :
    Memory.wf (Memory.set m a b) = true := by
  induction m with
  | nil => rfl
  | cons c m ih =>
    obtain ⟨k, c⟩ := c
    simp only [Memory.wf, Bool.and_eq_true] at h
    simp only [Memory.set]
    rcases Nat.lt_trichotomy a k with hlt | rfl | hgt
    · rw [if_pos hlt]
      have above : Memory.above a ((k, c) :: m) = true := by
        have := Memory.above_mono hlt h.1
        simp only [Memory.above, List.all_cons, hlt, decide_true, Bool.true_and] at this ⊢
        exact this
      simp only [Memory.wf, above, h.1, h.2, Bool.and_self]
    · rw [if_neg (Nat.lt_irrefl a), if_pos rfl]
      simp only [Memory.wf, h.1, h.2, Bool.and_self]
    · rw [if_neg (by omega), if_neg (by omega)]
      simp only [Memory.wf, Memory.above_set b hgt h.1, ih h.2, Bool.and_self]

theorem Memory.within_set {m : Memory} {size a : Nat} (b : Byte) (ha : a < size)
    (h : Memory.within size m = true) : Memory.within size (Memory.set m a b) = true :=
  Memory.all_set (p := fun x => decide (x < size)) a b (decide_eq_true ha) h

theorem Memory.wf_write {m : Memory} (a : Nat) (bs : List Byte) (h : Memory.wf m = true) :
    Memory.wf (Memory.write m a bs) = true := by
  induction bs generalizing m a with
  | nil => exact h
  | cons b bs ih => exact ih _ (Memory.wf_set a b h)

theorem Memory.within_write {m : Memory} {size : Nat} (a : Nat) (bs : List Byte) (ha : a + bs.length ≤ size)
    (h : Memory.within size m = true) : Memory.within size (Memory.write m a bs) = true := by
  induction bs generalizing m a with
  | nil => exact h
  | cons b bs ih =>
    simp only [List.length_cons] at ha
    exact ih _ (by omega) (Memory.within_set b (by omega) h)

/-- A read after `MemWrite`: the byte written inside the range, the old one outside. -/
theorem Memory.get?_write {m : Memory} (a : Nat) (bs : List Byte) (x : Nat) (h : Memory.wf m = true) :
    Memory.get? (Memory.write m a bs) x =
      if a ≤ x ∧ x < a + bs.length then bs[x - a]? else Memory.get? m x := by
  induction bs generalizing m a with
  | nil => rw [if_neg (by simp only [List.length_nil]; omega)]; rfl
  | cons b bs ih =>
    rw [Memory.write, ih _ (Memory.wf_set a b h), Memory.get?_set _ _ _ _ h]
    simp only [List.length_cons]
    rcases Nat.lt_trichotomy x a with hlt | rfl | hgt
    · rw [if_neg (by omega), if_neg (by omega), if_neg (by omega)]
    · rw [if_neg (by omega), if_pos rfl, if_pos (by omega)]
      simp
    · obtain ⟨d, rfl⟩ : ∃ d, x = a + 1 + d := ⟨x - (a + 1), by omega⟩
      have e : a + 1 + d - a = d + 1 := by omega
      simp only [e, List.getElem?_cons_succ, Nat.add_sub_cancel_left]
      split_ifs <;> first | rfl | omega

theorem Memory.wf_fill {m : Memory} (f : Nat → Byte) (n : Nat) (h : Memory.wf m = true) :
    Memory.wf (Memory.fill m f n) = true := by
  induction n with
  | zero => exact h
  | succ n ih => exact Memory.wf_set _ _ ih

theorem Memory.within_fill {m : Memory} {size : Nat} (f : Nat → Byte) (n : Nat) (hn : n ≤ size)
    (h : Memory.within size m = true) : Memory.within size (Memory.fill m f n) = true := by
  induction n with
  | zero => exact h
  | succ n ih => exact Memory.within_set _ (by omega) (ih (by omega))

/-- A read after `fill`: the value filled in below `n`, the old one from `n` on. -/
theorem Memory.get?_fill {m : Memory} (f : Nat → Byte) (n x : Nat) (h : Memory.wf m = true) :
    Memory.get? (Memory.fill m f n) x = if x < n then some (f x) else Memory.get? m x := by
  induction n with
  | zero => rw [if_neg (by omega)]; rfl
  | succ n ih =>
    rw [Memory.fill, Memory.get?_set _ _ _ _ (Memory.wf_fill f n h), ih]
    rcases Nat.lt_trichotomy x n with hlt | rfl | hgt
    · rw [if_neg (by omega), if_pos hlt, if_pos (by omega)]
    · rw [if_pos rfl, if_pos (by omega)]
    · rw [if_neg (by omega), if_neg (by omega), if_neg (by omega)]

end Sys2Proof.Machine
end

