-- ==== Sys2Proof/Laws/State.lean ====
section
/-! SUPPORT. What each update of the state does to each field: one lemma per field per update, so that no proof unfolds a record update. -/

namespace Sys2Proof.Machine

variable (s : State)

/-! ## `storeIbuf` -/

@[simp] theorem storeIbuf_status (a : Nat) (b : Byte) : (storeIbuf s a b).status = s.status := rfl
@[simp] theorem storeIbuf_width (a : Nat) (b : Byte) : (storeIbuf s a b).width = s.width := rfl
@[simp] theorem storeIbuf_height (a : Nat) (b : Byte) : (storeIbuf s a b).height = s.height := rfl
@[simp] theorem storeIbuf_inLen (a : Nat) (b : Byte) : (storeIbuf s a b).inLen = s.inLen := rfl
@[simp] theorem storeIbuf_irqEn (a : Nat) (b : Byte) : (storeIbuf s a b).irqEn = s.irqEn := rfl
@[simp] theorem storeIbuf_wLat (a : Nat) (b : Byte) : (storeIbuf s a b).wLat = s.wLat := rfl
@[simp] theorem storeIbuf_hLat (a : Nat) (b : Byte) : (storeIbuf s a b).hLat = s.hLat := rfl
@[simp] theorem storeIbuf_pos (a : Nat) (b : Byte) : (storeIbuf s a b).pos = s.pos := rfl
@[simp] theorem storeIbuf_ibuf (a : Nat) (b : Byte) : (storeIbuf s a b).ibuf = Memory.set s.ibuf a b := rfl
@[simp] theorem storeIbuf_obuf (a : Nat) (b : Byte) : (storeIbuf s a b).obuf = s.obuf := rfl
@[simp] theorem storeIbuf_bufDraw (a : Nat) (b : Byte) : (storeIbuf s a b).bufDraw = s.bufDraw := rfl
@[simp] theorem storeIbuf_draws (a : Nat) (b : Byte) : (storeIbuf s a b).draws = s.draws := rfl
@[simp] theorem storeIbuf_inbox (a : Nat) (b : Byte) : (storeIbuf s a b).inbox = s.inbox := rfl
@[simp] theorem storeIbuf_reply (a : Nat) (b : Byte) : (storeIbuf s a b).reply = s.reply := rfl

/-! ## `storeObuf` -/

@[simp] theorem storeObuf_status (a : Nat) (bs : List Byte) : (storeObuf s a bs).status = s.status := rfl
@[simp] theorem storeObuf_width (a : Nat) (bs : List Byte) : (storeObuf s a bs).width = s.width := rfl
@[simp] theorem storeObuf_height (a : Nat) (bs : List Byte) : (storeObuf s a bs).height = s.height := rfl
@[simp] theorem storeObuf_inLen (a : Nat) (bs : List Byte) : (storeObuf s a bs).inLen = s.inLen := rfl
@[simp] theorem storeObuf_irqEn (a : Nat) (bs : List Byte) : (storeObuf s a bs).irqEn = s.irqEn := rfl
@[simp] theorem storeObuf_wLat (a : Nat) (bs : List Byte) : (storeObuf s a bs).wLat = s.wLat := rfl
@[simp] theorem storeObuf_hLat (a : Nat) (bs : List Byte) : (storeObuf s a bs).hLat = s.hLat := rfl
@[simp] theorem storeObuf_pos (a : Nat) (bs : List Byte) : (storeObuf s a bs).pos = s.pos := rfl
@[simp] theorem storeObuf_ibuf (a : Nat) (bs : List Byte) : (storeObuf s a bs).ibuf = s.ibuf := rfl
@[simp] theorem storeObuf_obuf (a : Nat) (bs : List Byte) : (storeObuf s a bs).obuf = Memory.write s.obuf a bs := rfl
@[simp] theorem storeObuf_bufDraw (a : Nat) (bs : List Byte) : (storeObuf s a bs).bufDraw = s.bufDraw := rfl
@[simp] theorem storeObuf_draws (a : Nat) (bs : List Byte) : (storeObuf s a bs).draws = s.draws := rfl
@[simp] theorem storeObuf_inbox (a : Nat) (bs : List Byte) : (storeObuf s a bs).inbox = s.inbox := rfl
@[simp] theorem storeObuf_reply (a : Nat) (bs : List Byte) : (storeObuf s a bs).reply = s.reply := rfl

/-! ## `abortFrame` -/

@[simp] theorem abortFrame_status : (abortFrame s).status = s.status := by
  unfold abortFrame; split <;> rfl
@[simp] theorem abortFrame_width : (abortFrame s).width = s.width := by
  unfold abortFrame; split <;> rfl
@[simp] theorem abortFrame_height : (abortFrame s).height = s.height := by
  unfold abortFrame; split <;> rfl
@[simp] theorem abortFrame_inLen : (abortFrame s).inLen = s.inLen := by
  unfold abortFrame; split <;> rfl
@[simp] theorem abortFrame_irqEn : (abortFrame s).irqEn = s.irqEn := by
  unfold abortFrame; split <;> rfl
@[simp] theorem abortFrame_wLat : (abortFrame s).wLat = s.wLat := by
  unfold abortFrame; split <;> rfl
@[simp] theorem abortFrame_hLat : (abortFrame s).hLat = s.hLat := by
  unfold abortFrame; split <;> rfl
@[simp] theorem abortFrame_pos : (abortFrame s).pos = s.pos := by
  unfold abortFrame; split <;> rfl
@[simp] theorem abortFrame_ibuf : (abortFrame s).ibuf = s.ibuf := by
  unfold abortFrame; split <;> rfl
@[simp] theorem abortFrame_obuf : (abortFrame s).obuf = if s.status.busy = true then Memory.fill s.obuf (Config.unspecifiedObuf s.draws) (latchedOsize s) else s.obuf := by
  unfold abortFrame; split <;> rfl
@[simp] theorem abortFrame_bufDraw : (abortFrame s).bufDraw = s.bufDraw := by
  unfold abortFrame; split <;> rfl
@[simp] theorem abortFrame_draws : (abortFrame s).draws = if s.status.busy = true then s.draws + 1 else s.draws := by
  unfold abortFrame; split <;> rfl
@[simp] theorem abortFrame_inbox : (abortFrame s).inbox = s.inbox := by
  unfold abortFrame; split <;> rfl
@[simp] theorem abortFrame_reply : (abortFrame s).reply = s.reply := by
  unfold abortFrame; split <;> rfl

/-! ## `enterFault` -/

@[simp] theorem enterFault_status (c : Cause) : (enterFault c s).status = ⟨false, s.status.done, true, causeCode c, s.status.alpha⟩ := by
  simp [enterFault]
@[simp] theorem enterFault_width (c : Cause) : (enterFault c s).width = s.width := by
  simp [enterFault]
@[simp] theorem enterFault_height (c : Cause) : (enterFault c s).height = s.height := by
  simp [enterFault]
@[simp] theorem enterFault_inLen (c : Cause) : (enterFault c s).inLen = s.inLen := by
  simp [enterFault]
@[simp] theorem enterFault_irqEn (c : Cause) : (enterFault c s).irqEn = s.irqEn := by
  simp [enterFault]
@[simp] theorem enterFault_wLat (c : Cause) : (enterFault c s).wLat = s.wLat := by
  simp [enterFault]
@[simp] theorem enterFault_hLat (c : Cause) : (enterFault c s).hLat = s.hLat := by
  simp [enterFault]
@[simp] theorem enterFault_pos (c : Cause) : (enterFault c s).pos = ⟨0, 0⟩ := by
  simp [enterFault]
@[simp] theorem enterFault_ibuf (c : Cause) : (enterFault c s).ibuf = s.ibuf := by
  simp [enterFault]
@[simp] theorem enterFault_obuf (c : Cause) : (enterFault c s).obuf = (abortFrame s).obuf := by
  simp [enterFault]
@[simp] theorem enterFault_bufDraw (c : Cause) : (enterFault c s).bufDraw = s.bufDraw := by
  simp [enterFault]
@[simp] theorem enterFault_draws (c : Cause) : (enterFault c s).draws = (abortFrame s).draws := by
  simp [enterFault]
@[simp] theorem enterFault_inbox (c : Cause) : (enterFault c s).inbox = s.inbox := by
  simp [enterFault]
@[simp] theorem enterFault_reply (c : Cause) : (enterFault c s).reply = s.reply := by
  simp [enterFault]

/-! ## `softReset` -/

@[simp] theorem softReset_status : (softReset s).status = ⟨false, false, false, 0, false⟩ := by
  simp [softReset]
@[simp] theorem softReset_width : (softReset s).width = 0 := by
  simp [softReset]
@[simp] theorem softReset_height : (softReset s).height = 0 := by
  simp [softReset]
@[simp] theorem softReset_inLen : (softReset s).inLen = 0 := by
  simp [softReset]
@[simp] theorem softReset_irqEn : (softReset s).irqEn = ⟨false, false⟩ := by
  simp [softReset]
@[simp] theorem softReset_wLat : (softReset s).wLat = 0 := by
  simp [softReset]
@[simp] theorem softReset_hLat : (softReset s).hLat = 0 := by
  simp [softReset]
@[simp] theorem softReset_pos : (softReset s).pos = ⟨0, 0⟩ := by
  simp [softReset]
@[simp] theorem softReset_ibuf : (softReset s).ibuf = s.ibuf := by
  simp [softReset]
@[simp] theorem softReset_obuf : (softReset s).obuf = (abortFrame s).obuf := by
  simp [softReset]
@[simp] theorem softReset_bufDraw : (softReset s).bufDraw = s.bufDraw := by
  simp [softReset]
@[simp] theorem softReset_draws : (softReset s).draws = (abortFrame s).draws := by
  simp [softReset]
@[simp] theorem softReset_inbox : (softReset s).inbox = s.inbox := by
  simp [softReset]
@[simp] theorem softReset_reply : (softReset s).reply = s.reply := by
  simp [softReset]

/-! ## `hardReset` -/

@[simp] theorem hardReset_status : (hardReset s).status = ⟨false, false, false, 0, false⟩ := rfl
@[simp] theorem hardReset_width : (hardReset s).width = 0 := rfl
@[simp] theorem hardReset_height : (hardReset s).height = 0 := rfl
@[simp] theorem hardReset_inLen : (hardReset s).inLen = 0 := rfl
@[simp] theorem hardReset_irqEn : (hardReset s).irqEn = ⟨false, false⟩ := rfl
@[simp] theorem hardReset_wLat : (hardReset s).wLat = 0 := rfl
@[simp] theorem hardReset_hLat : (hardReset s).hLat = 0 := rfl
@[simp] theorem hardReset_pos : (hardReset s).pos = ⟨0, 0⟩ := rfl
@[simp] theorem hardReset_ibuf : (hardReset s).ibuf = [] := rfl
@[simp] theorem hardReset_obuf : (hardReset s).obuf = [] := rfl
@[simp] theorem hardReset_bufDraw : (hardReset s).bufDraw = s.draws := rfl
@[simp] theorem hardReset_draws : (hardReset s).draws = s.draws + 1 := rfl
@[simp] theorem hardReset_inbox : (hardReset s).inbox = s.inbox := rfl
@[simp] theorem hardReset_reply : (hardReset s).reply = .none := rfl

/-! ## `acceptConv` -/

@[simp] theorem acceptConv_status (a : Bool) : (acceptConv a s).status = ⟨true, false, s.status.err, s.status.cause, a⟩ := rfl
@[simp] theorem acceptConv_width (a : Bool) : (acceptConv a s).width = s.width := rfl
@[simp] theorem acceptConv_height (a : Bool) : (acceptConv a s).height = s.height := rfl
@[simp] theorem acceptConv_inLen (a : Bool) : (acceptConv a s).inLen = s.inLen := rfl
@[simp] theorem acceptConv_irqEn (a : Bool) : (acceptConv a s).irqEn = s.irqEn := rfl
@[simp] theorem acceptConv_wLat (a : Bool) : (acceptConv a s).wLat = s.width := rfl
@[simp] theorem acceptConv_hLat (a : Bool) : (acceptConv a s).hLat = s.height := rfl
@[simp] theorem acceptConv_pos (a : Bool) : (acceptConv a s).pos = ⟨0, 0⟩ := rfl
@[simp] theorem acceptConv_ibuf (a : Bool) : (acceptConv a s).ibuf = s.ibuf := rfl
@[simp] theorem acceptConv_obuf (a : Bool) : (acceptConv a s).obuf = s.obuf := rfl
@[simp] theorem acceptConv_bufDraw (a : Bool) : (acceptConv a s).bufDraw = s.bufDraw := rfl
@[simp] theorem acceptConv_draws (a : Bool) : (acceptConv a s).draws = s.draws := rfl
@[simp] theorem acceptConv_inbox (a : Bool) : (acceptConv a s).inbox = s.inbox := rfl
@[simp] theorem acceptConv_reply (a : Bool) : (acceptConv a s).reply = s.reply := rfl

/-! ## `advance` -/

@[simp] theorem advance_status : (advance s).status = s.status := rfl
@[simp] theorem advance_width : (advance s).width = s.width := rfl
@[simp] theorem advance_height : (advance s).height = s.height := rfl
@[simp] theorem advance_inLen : (advance s).inLen = s.inLen := rfl
@[simp] theorem advance_irqEn : (advance s).irqEn = s.irqEn := rfl
@[simp] theorem advance_wLat : (advance s).wLat = s.wLat := rfl
@[simp] theorem advance_hLat : (advance s).hLat = s.hLat := rfl
@[simp] theorem advance_pos : (advance s).pos = nextPos s.wLat.toNat s.pos := rfl
@[simp] theorem advance_ibuf : (advance s).ibuf = s.ibuf := rfl
@[simp] theorem advance_obuf : (advance s).obuf = s.obuf := rfl
@[simp] theorem advance_bufDraw : (advance s).bufDraw = s.bufDraw := rfl
@[simp] theorem advance_draws : (advance s).draws = s.draws := rfl
@[simp] theorem advance_inbox : (advance s).inbox = s.inbox := rfl
@[simp] theorem advance_reply : (advance s).reply = s.reply := rfl

/-! ## `finish` -/

@[simp] theorem finish_status : (finish s).status = ⟨false, true, s.status.err, s.status.cause, s.status.alpha⟩ := rfl
@[simp] theorem finish_width : (finish s).width = s.width := rfl
@[simp] theorem finish_height : (finish s).height = s.height := rfl
@[simp] theorem finish_inLen : (finish s).inLen = s.inLen := rfl
@[simp] theorem finish_irqEn : (finish s).irqEn = s.irqEn := rfl
@[simp] theorem finish_wLat : (finish s).wLat = s.wLat := rfl
@[simp] theorem finish_hLat : (finish s).hLat = s.hLat := rfl
@[simp] theorem finish_pos : (finish s).pos = ⟨0, 0⟩ := rfl
@[simp] theorem finish_ibuf : (finish s).ibuf = s.ibuf := rfl
@[simp] theorem finish_obuf : (finish s).obuf = s.obuf := rfl
@[simp] theorem finish_bufDraw : (finish s).bufDraw = s.bufDraw := rfl
@[simp] theorem finish_draws : (finish s).draws = s.draws := rfl
@[simp] theorem finish_inbox : (finish s).inbox = s.inbox := rfl
@[simp] theorem finish_reply : (finish s).reply = s.reply := rfl

/-! ## `pstore` -/

@[simp] theorem pstore_status (row col : Nat) (p : Rgb) : (pstore s row col p).status = s.status := rfl
@[simp] theorem pstore_width (row col : Nat) (p : Rgb) : (pstore s row col p).width = s.width := rfl
@[simp] theorem pstore_height (row col : Nat) (p : Rgb) : (pstore s row col p).height = s.height := rfl
@[simp] theorem pstore_inLen (row col : Nat) (p : Rgb) : (pstore s row col p).inLen = s.inLen := rfl
@[simp] theorem pstore_irqEn (row col : Nat) (p : Rgb) : (pstore s row col p).irqEn = s.irqEn := rfl
@[simp] theorem pstore_wLat (row col : Nat) (p : Rgb) : (pstore s row col p).wLat = s.wLat := rfl
@[simp] theorem pstore_hLat (row col : Nat) (p : Rgb) : (pstore s row col p).hLat = s.hLat := rfl
@[simp] theorem pstore_pos (row col : Nat) (p : Rgb) : (pstore s row col p).pos = s.pos := rfl
@[simp] theorem pstore_ibuf (row col : Nat) (p : Rgb) : (pstore s row col p).ibuf = s.ibuf := rfl
@[simp] theorem pstore_obuf (row col : Nat) (p : Rgb) : (pstore s row col p).obuf = Memory.write s.obuf (poff s.wLat.toNat row col s.status.alpha) (pixelBytes s.status.alpha p) := rfl
@[simp] theorem pstore_bufDraw (row col : Nat) (p : Rgb) : (pstore s row col p).bufDraw = s.bufDraw := rfl
@[simp] theorem pstore_draws (row col : Nat) (p : Rgb) : (pstore s row col p).draws = s.draws := rfl
@[simp] theorem pstore_inbox (row col : Nat) (p : Rgb) : (pstore s row col p).inbox = s.inbox := rfl
@[simp] theorem pstore_reply (row col : Nat) (p : Rgb) : (pstore s row col p).reply = s.reply := rfl

/-! ## `pixelEffect` -/

@[simp] theorem pixelEffect_status : (pixelEffect s).status = if atLastPixel s = true then ⟨false, true, s.status.err, s.status.cause, s.status.alpha⟩ else s.status := by
  unfold pixelEffect; dsimp only; split <;> simp
@[simp] theorem pixelEffect_width : (pixelEffect s).width = s.width := by
  unfold pixelEffect; dsimp only; split <;> simp
@[simp] theorem pixelEffect_height : (pixelEffect s).height = s.height := by
  unfold pixelEffect; dsimp only; split <;> simp
@[simp] theorem pixelEffect_inLen : (pixelEffect s).inLen = s.inLen := by
  unfold pixelEffect; dsimp only; split <;> simp
@[simp] theorem pixelEffect_irqEn : (pixelEffect s).irqEn = s.irqEn := by
  unfold pixelEffect; dsimp only; split <;> simp
@[simp] theorem pixelEffect_wLat : (pixelEffect s).wLat = s.wLat := by
  unfold pixelEffect; dsimp only; split <;> simp
@[simp] theorem pixelEffect_hLat : (pixelEffect s).hLat = s.hLat := by
  unfold pixelEffect; dsimp only; split <;> simp
@[simp] theorem pixelEffect_pos : (pixelEffect s).pos = if atLastPixel s = true then ⟨0, 0⟩ else nextPos s.wLat.toNat s.pos := by
  unfold pixelEffect; dsimp only; split <;> simp
@[simp] theorem pixelEffect_ibuf : (pixelEffect s).ibuf = s.ibuf := by
  unfold pixelEffect; dsimp only; split <;> simp
@[simp] theorem pixelEffect_obuf : (pixelEffect s).obuf = (pstore s s.pos.row.toNat s.pos.col.toNat (pixelAt s s.pos.row.toNat s.pos.col.toNat)).obuf := by
  unfold pixelEffect; dsimp only; split <;> simp
@[simp] theorem pixelEffect_bufDraw : (pixelEffect s).bufDraw = s.bufDraw := by
  unfold pixelEffect; dsimp only; split <;> simp
@[simp] theorem pixelEffect_draws : (pixelEffect s).draws = s.draws := by
  unfold pixelEffect; dsimp only; split <;> simp
@[simp] theorem pixelEffect_inbox : (pixelEffect s).inbox = s.inbox := by
  unfold pixelEffect; dsimp only; split <;> simp
@[simp] theorem pixelEffect_reply : (pixelEffect s).reply = s.reply := by
  unfold pixelEffect; dsimp only; split <;> simp

/-! ## `withFetchWord` -/

@[simp] theorem withFetchWord_status (nbits w : Nat) : (s.withFetchWord nbits w).status = s.status := rfl
@[simp] theorem withFetchWord_width (nbits w : Nat) : (s.withFetchWord nbits w).width = s.width := rfl
@[simp] theorem withFetchWord_height (nbits w : Nat) : (s.withFetchWord nbits w).height = s.height := rfl
@[simp] theorem withFetchWord_inLen (nbits w : Nat) : (s.withFetchWord nbits w).inLen = s.inLen := rfl
@[simp] theorem withFetchWord_irqEn (nbits w : Nat) : (s.withFetchWord nbits w).irqEn = s.irqEn := rfl
@[simp] theorem withFetchWord_wLat (nbits w : Nat) : (s.withFetchWord nbits w).wLat = s.wLat := rfl
@[simp] theorem withFetchWord_hLat (nbits w : Nat) : (s.withFetchWord nbits w).hLat = s.hLat := rfl
@[simp] theorem withFetchWord_pos (nbits w : Nat) : (s.withFetchWord nbits w).pos = s.pos := rfl
@[simp] theorem withFetchWord_ibuf (nbits w : Nat) : (s.withFetchWord nbits w).ibuf = s.ibuf := rfl
@[simp] theorem withFetchWord_obuf (nbits w : Nat) : (s.withFetchWord nbits w).obuf = s.obuf := rfl
@[simp] theorem withFetchWord_bufDraw (nbits w : Nat) : (s.withFetchWord nbits w).bufDraw = s.bufDraw := rfl
@[simp] theorem withFetchWord_draws (nbits w : Nat) : (s.withFetchWord nbits w).draws = s.draws := rfl
@[simp] theorem withFetchWord_inbox (nbits w : Nat) : (s.withFetchWord nbits w).inbox = issue (tableWord nbits w) :: s.inbox := rfl
@[simp] theorem withFetchWord_reply (nbits w : Nat) : (s.withFetchWord nbits w).reply = s.reply := rfl

end Sys2Proof.Machine
end

