-- ==== Sys2Proof/Laws/Ops.lean ====
section
/-! SUPPORT. What each shared operation does to the bytes of the buffers and to the invariants' ingredients; the checks of `conv` as one equivalence. -/

namespace Sys2Proof.Machine

theorem Config.six_le_ibufBytes : 6 ≤ Config.ibufBytes := Nat.le_add_right 6 _

theorem Config.sixteen_le_obufBytes : 16 ≤ Config.obufBytes := Nat.le_add_right 16 _

theorem Config.ibufBytes_le : Config.ibufBytes ≤ 4294967296 := by
  have := Config.ibufExtra.isLt
  unfold Config.ibufBytes
  omega

theorem Config.obufBytes_le : Config.obufBytes ≤ 4294967296 := by
  have := Config.obufExtra.isLt
  unfold Config.obufBytes
  omega

/-! ## Bytes of the buffers -/

theorem ibufByte_congr {s t : State} (h : t.ibuf = s.ibuf) (hd : t.bufDraw = s.bufDraw) (k : Nat) :
    ibufByte t k = ibufByte s k := by
  simp only [ibufByte, h, hd]

theorem obufByte_congr {s t : State} (h : t.obuf = s.obuf) (hd : t.bufDraw = s.bufDraw) (k : Nat) :
    obufByte t k = obufByte s k := by
  simp only [obufByte, h, hd]

theorem ibufByte_storeIbuf {s : State} (a : Nat) (b : Byte) (k : Nat) (h : Memory.wf s.ibuf = true) :
    ibufByte (storeIbuf s a b) k = if k = a then b else ibufByte s k := by
  simp only [ibufByte, storeIbuf_ibuf, storeIbuf_bufDraw, Memory.get?_set _ _ _ _ h]
  split_ifs <;> rfl

theorem obufByte_storeObuf {s : State} (a : Nat) (bs : List Byte) (k : Nat) (h : Memory.wf s.obuf = true) :
    obufByte (storeObuf s a bs) k = if a ≤ k ∧ k < a + bs.length then bs.getD (k - a) 0 else obufByte s k := by
  simp only [obufByte, storeObuf_obuf, storeObuf_bufDraw, Memory.get?_write _ _ _ h]
  by_cases hk : a ≤ k ∧ k < a + bs.length
  · have hlt : k - a < bs.length := by omega
    rw [if_pos hk, if_pos hk, List.getElem?_eq_getElem hlt, List.getD_eq_getElem _ _ hlt]
  · rw [if_neg hk, if_neg hk]

/-- An abort changes no byte outside the aborted frame, and none when no conversion ran. -/
theorem obufByte_abortFrame {s : State} (k : Nat) (hw : Memory.wf s.obuf = true)
    (h : s.status.busy = false ∨ osize s.wLat.toNat s.hLat.toNat s.status.alpha ≤ k) :
    obufByte (abortFrame s) k = obufByte s k := by
  simp only [obufByte, abortFrame_obuf, abortFrame_bufDraw]
  by_cases hb : s.status.busy = true
  · have hk : osize s.wLat.toNat s.hLat.toNat s.status.alpha ≤ k := by simpa [hb] using h
    rw [if_pos hb, Memory.get?_fill _ _ _ hw, if_neg (by unfold latchedOsize; omega)]
  · rw [if_neg hb]

theorem abortFrame_idle {s : State} (h : s.status.busy = false) : abortFrame s = s := by
  rw [abortFrame, if_neg (by simp [h])]

theorem wf_abortFrame {s : State} (h : Memory.wf s.obuf = true) : Memory.wf (abortFrame s).obuf = true := by
  rw [abortFrame_obuf]
  split_ifs
  · exact Memory.wf_fill _ _ h
  · exact h

theorem within_abortFrame {s : State} {size : Nat} (h : Memory.within size s.obuf = true)
    (hf : s.status.busy = true → latchedOsize s ≤ size) : Memory.within size (abortFrame s).obuf = true := by
  rw [abortFrame_obuf]
  split_ifs with hb
  · exact Memory.within_fill _ _ (hf hb) h
  · exact h

theorem pixelBytes_length (a : Bool) (p : Rgb) : (pixelBytes a p).length = bpp a := by
  cases a <;> rfl

/-- A pixel store puts the pixel's bytes at its place and leaves every other byte of `OBUF`. -/
theorem obufByte_pstore {s : State} (row col : Nat) (p : Rgb) (k : Nat) (h : Memory.wf s.obuf = true) :
    obufByte (pstore s row col p) k =
      if poff s.wLat.toNat row col s.status.alpha ≤ k ∧
          k < poff s.wLat.toNat row col s.status.alpha + bpp s.status.alpha then
        (pixelBytes s.status.alpha p).getD (k - poff s.wLat.toNat row col s.status.alpha) 0
      else obufByte s k := by
  rw [pstore, obufByte_storeObuf _ _ _ h, pixelBytes_length]

theorem obufByte_pixelEffect (s : State) (k : Nat) :
    obufByte (pixelEffect s) k =
      obufByte (pstore s s.pos.row.toNat s.pos.col.toNat (pixelAt s s.pos.row.toNat s.pos.col.toNat)) k :=
  obufByte_congr (by simp) (by simp) k

/-! ## The checks of a conversion command -/

theorem dim_eq_zero_iff (w : Dim) : w = 0 ↔ w.toNat = 0 := by
  rw [← BitVec.toNat_inj]
  rfl

theorem dim_odd_iff (w : Dim) : w.getLsbD 0 = true ↔ w.toNat % 2 = 1 := by
  rw [BitVec.getLsbD, Nat.testBit_zero]
  simp

/-- `conv` accepts exactly when every check of R109 passes. -/
theorem convFault_eq_none_iff (ib ob : Nat) (busy : Bool) (w h : Dim) (len : Word) (a : Bool) :
    convFault ib ob busy w h len a = none ↔
      busy = false ∧ 0 < w.toNat ∧ 0 < h.toNat ∧ w.toNat % 2 = 0 ∧ h.toNat % 2 = 0 ∧
        w.toNat * h.toNat * 3 / 2 ≤ ib ∧ w.toNat * h.toNat * (3 + a.toNat) ≤ ob ∧
        len.toNat = w.toNat * h.toNat * 3 / 2 := by
  unfold convFault
  simp only [dim_eq_zero_iff, dim_odd_iff]
  generalize w.toNat * h.toNat * 3 / 2 = f
  generalize w.toNat * h.toNat * (3 + a.toNat) = o
  cases busy
  · rw [if_neg Bool.false_ne_true]
    split_ifs <;> simp only [eq_self, false_iff, true_iff, true_and] <;> omega
  · simp only [if_true, reduceCtorEq, false_and]

theorem canConvert_iff (a : Bool) (s : State) :
    CanConvert a s ↔ s.status.err = false ∧
      convFault Config.ibufBytes Config.obufBytes s.status.busy s.width s.height s.inLen a = none := by
  rw [convFault_eq_none_iff]
  constructor
  · rintro ⟨h1, h2, h3, h4, h5, h6, h7, h8, h9⟩
    exact ⟨h1, h2, h3, h4, h5, h6, h7, h8, h9⟩
  · rintro ⟨h1, h2, h3, h4, h5, h6, h7, h8, h9⟩
    exact ⟨h1, h2, h3, h4, h5, h6, h7, h8, h9⟩

/-- What `conv` can do: fault, or accept when the command can be accepted. -/
theorem conv_cases (a : Bool) (s : State) (he : s.status.err = false) :
    (∃ c, convFault Config.ibufBytes Config.obufBytes s.status.busy s.width s.height s.inLen a = some c ∧
      conv a s = enterFault c s) ∨ (CanConvert a s ∧ conv a s = acceptConv a s) := by
  rw [canConvert_iff, conv]
  cases convFault Config.ibufBytes Config.obufBytes s.status.busy s.width s.height s.inLen a with
  | none => exact .inr ⟨⟨he, rfl⟩, rfl⟩
  | some c => exact .inl ⟨c, rfl, rfl⟩

/-! ## Sizes -/

/-- For even dimensions the two ways R10 and R109 write `FSIZE` agree. -/
theorem fsize_eq {w h : Nat} (hw : w % 2 = 0) (hh : h % 2 = 0) : fsize w h = w * h * 3 / 2 := by
  obtain ⟨x, rfl⟩ := Nat.dvd_of_mod_eq_zero hw
  obtain ⟨y, rfl⟩ := Nat.dvd_of_mod_eq_zero hh
  simp only [fsize, ysize, csize, chromaW, chromaH, Nat.mul_div_cancel_left _ (by decide : 0 < 2)]
  have : 2 * x * (2 * y) = 4 * (x * y) := by ring
  omega

end Sys2Proof.Machine
end

