-- ==== Sys2Proof/Laws/PerInstr.lean ====
section
/-! SUPPORT. What is said of every instruction as syntax, one lemma per constructor. -/

namespace Sys2Proof.Laws

/-- A command's fields meet format `C` (30_encoding.md R80), and they are read back from its word. -/
def EncodingWellFormed.Statement (i : Instr) : Prop :=
  i.wellFormed = true ∧ FormatC.ofWord (encode i) = fieldsOf i

theorem EncodingWellFormed.nop : EncodingWellFormed.Statement .nop := ⟨by decide, by decide⟩

theorem EncodingWellFormed.convRgb : EncodingWellFormed.Statement .convRgb := ⟨by decide, by decide⟩

theorem EncodingWellFormed.convRgba : EncodingWellFormed.Statement .convRgba := ⟨by decide, by decide⟩

theorem EncodingWellFormed.srst : EncodingWellFormed.Statement .srst := ⟨by decide, by decide⟩

end Sys2Proof.Laws
end

