-- ==== Sys2Proof/Laws/Run.lean ====
section
/-! SUPPORT. Runs of several steps (`Host.Core.run`), one step or one stretch at a time. -/

namespace Sys2Proof.Machine

/-- A run of one step more is the step, then the rest. -/
theorem run_step {k : Nat} {s t : State} {r} (h : step s = .next t) (h2 : Host.Core.run core k t = r) :
    Host.Core.run core (k + 1) s = r := by
  have h' : core.step s = .next t := h
  simp only [Host.Core.run, h']
  exact h2

/-- A run that goes on is the first stretch, then the second. -/
theorem run_append {a : Nat} : ∀ {n b : Nat} {s t : State} {r}, n = a + b → Host.Core.run core a s = .next t →
    Host.Core.run core b t = r → Host.Core.run core n s = r := by
  induction a with
  | zero =>
    intro n b s t r e h h2
    cases h
    rw [e, Nat.zero_add]
    exact h2
  | succ a ih =>
    intro n b s t r e h h2
    simp only [Host.Core.run] at h
    cases hs : step s with
    | next s' =>
      have h' : core.step s = .next s' := hs
      rw [h'] at h
      rw [e, Nat.succ_add]
      exact run_step hs (ih rfl h h2)
    | fault q =>
      have h' : core.step s = .fault q := hs
      rw [h'] at h
      cases h
    | refused q =>
      have h' : core.step s = .refused q := hs
      rw [h'] at h
      cases h

end Sys2Proof.Machine
end

