-- ==== Sys2Proof/Laws/Step.lean ====
section
/-! SUPPORT. What a step can do, said once: the inversion of `step`, of a HOST transaction and of a command. Every proof about all steps goes through these. -/

namespace Sys2Proof.Machine

/-- ENGINE moves next and `rest` is what is left to come: its turn is at the head, or no move is to come. -/
def EngineNext (s : State) (rest : List Move) : Prop := s.inbox = .engine :: rest ∨ (s.inbox = [] ∧ rest = [])

theorem engineNext_self {s : State} {rest : List Move} (h : EngineNext s rest) :
    step s = engineMove { s with inbox := rest } := by
  rcases h with h | ⟨h, rfl⟩
  · simp only [step, takeMove, h, runMove]
  · have : ({ s with inbox := [] } : State) = s := by cases s; simp_all
    simp only [step, takeMove, h, this]

theorem step_host {s : State} {x : Txn} {rest : List Move} (h : s.inbox = .host x :: rest) :
    step s = runTxn x { s with inbox := rest } := by
  simp only [step, takeMove, h, runMove]

theorem step_reset {s : State} {rest : List Move} (h : s.inbox = .reset :: rest) :
    step s = .next (hardReset { s with inbox := rest }) := by
  simp only [step, takeMove, h, runMove]

theorem runTxn_defined {x : Txn} (s : State) (h : txnDefined x = true) :
    runTxn x s = performTxn x { s with reply := .none } := by
  rw [runTxn, if_pos h]

theorem runTxn_undefined {x : Txn} (s : State) (h : txnDefined x = false) : runTxn x s = .refused (refusalOf x) := by
  rw [runTxn, if_neg (by simp [h])]

/-- A pixel step that answers a next state is one whose asserted facts hold, and answers its effect. -/
theorem pixelStep_cases {s t : State} (h : pixelStep s = .next t) :
    posInFrame s = true ∧ fetchesInRange s = true ∧ storeInRange s = true ∧ t = pixelEffect s := by
  unfold pixelStep at h
  split_ifs at h with h1 h2 h3
  cases h
  simp_all

/-- A pixel step whose asserted facts hold answers its effect. -/
theorem pixelStep_next {s : State} (h1 : posInFrame s = true) (h2 : fetchesInRange s = true) (h3 : storeInRange s = true) :
    pixelStep s = .next (pixelEffect s) := by
  simp [pixelStep, h1, h2, h3]

/-- ENGINE's step while BUSY. -/
theorem step_pixel {s : State} {rest : List Move} (h : EngineNext s rest) (hb : s.status.busy = true)
    (h1 : posInFrame s = true) (h2 : fetchesInRange s = true) (h3 : storeInRange s = true) :
    step s = .next (pixelEffect { s with inbox := rest }) := by
  rw [engineNext_self h, engineMove, if_pos (by exact hb)]
  exact pixelStep_next h1 h2 h3

/-- What a step can do. -/
theorem step_cases {s t : State} (h : step s = .next t) :
    (∃ rest, EngineNext s rest ∧ s.status.busy = false ∧ t = { s with inbox := rest }) ∨
    (∃ rest, EngineNext s rest ∧ s.status.busy = true ∧ posInFrame s = true ∧ fetchesInRange s = true ∧
      storeInRange s = true ∧ t = pixelEffect { s with inbox := rest }) ∨
    (∃ rest, s.inbox = .reset :: rest ∧ t = hardReset { s with inbox := rest }) ∨
    (∃ x rest, s.inbox = .host x :: rest ∧ txnDefined x = true ∧
      performTxn x { s with inbox := rest, reply := .none } = .next t) := by
  have engine : ∀ rest, EngineNext s rest →
      (∃ rest, EngineNext s rest ∧ s.status.busy = false ∧ t = { s with inbox := rest }) ∨
      (∃ rest, EngineNext s rest ∧ s.status.busy = true ∧ posInFrame s = true ∧ fetchesInRange s = true ∧
        storeInRange s = true ∧ t = pixelEffect { s with inbox := rest }) := by
    intro rest hn
    rw [engineNext_self hn, engineMove] at h
    by_cases hb : s.status.busy = true
    · rw [if_pos hb] at h
      obtain ⟨h1, h2, h3, h4⟩ := pixelStep_cases h
      exact .inr ⟨rest, hn, hb, h1, h2, h3, h4⟩
    · rw [if_neg hb] at h
      cases h
      exact .inl ⟨rest, hn, by simpa using hb, rfl⟩
  match hi : s.inbox with
  | [] => exact (engine [] (.inr ⟨hi, rfl⟩)).elim .inl fun h => .inr (.inl (by simpa [EngineNext, hi] using h))
  | .engine :: rest =>
    rcases engine rest (.inl hi) with h | h
    · exact .inl h
    · exact .inr (.inl h)
  | .reset :: rest =>
    rw [step_reset hi] at h
    cases h
    exact .inr (.inr (.inl ⟨rest, rfl, rfl⟩))
  | .host x :: rest =>
    rw [step_host hi] at h
    by_cases hd : txnDefined x = true
    · rw [runTxn_defined _ hd] at h
      exact .inr (.inr (.inr ⟨x, rest, rfl, hd, h⟩))
    · rw [runTxn_undefined _ (by simpa using hd)] at h
      cases h

/-- What a defined HOST transaction can do. -/
theorem performTxn_cases {x : Txn} {s t : State} (h : performTxn x s = .next t) :
    (∃ r, t = { s with reply := r } ∧ (∀ bits off v, x ≠ .wr bits off v) ∧ ∀ off b, x ≠ .stbIbuf off b) ∨
    (∃ off b, x = .stbIbuf off b ∧ t = storeIbuf s off b) ∨
    (∃ bits off v, x = .wr bits off v ∧ off ≠ 0x00 ∧ t = writeReg s off v) ∨
    (∃ bits w, x = .wr bits 0x00 w ∧ execCmd w s = .next t) := by
  cases x with
  | rd bits off => cases h; exact .inl ⟨_, rfl, by simp, by simp⟩
  | ldbIbuf off => cases h; exact .inl ⟨_, rfl, by simp, by simp⟩
  | ldbObuf off => cases h; exact .inl ⟨_, rfl, by simp, by simp⟩
  | stbObuf off b => cases h; exact .inl ⟨s.reply, rfl, by simp, by simp⟩
  | stbIbuf off b => cases h; exact .inr (.inl ⟨off, b, rfl, rfl⟩)
  | wr bits off v =>
    by_cases ho : off = 0x00
    · subst ho
      exact .inr (.inr (.inr ⟨bits, v, rfl, h⟩))
    · simp only [performTxn, if_neg ho] at h
      cases h
      exact .inr (.inr (.inl ⟨bits, off, v, rfl, ho, rfl⟩))

theorem encode_convCommand (a : Bool) : encode (convCommand a) = if a = true then 0x00000011 else 0x00000001 := by
  cases a <;> decide

/-- What a write to `CMD` can do: nothing, a fault, an acceptance, or a soft reset. -/
theorem execCmd_cases {w : Word} {s t : State} (h : execCmd w s = .next t) :
    (w ≠ 0x0000000F ∧ t = s) ∨
    (∃ c, w ≠ 0x0000000F ∧ s.status.err = false ∧ t = enterFault c s) ∨
    (∃ a, w = encode (convCommand a) ∧ CanConvert a s ∧ t = acceptConv a s) ∨
    (w = 0x0000000F ∧ t = softReset s) := by
  have gated : ∀ a, w = encode (convCommand a) → t = unlessError s (conv a) →
      (w ≠ 0x0000000F ∧ t = s) ∨ (∃ c, w ≠ 0x0000000F ∧ s.status.err = false ∧ t = enterFault c s) ∨
      (∃ a, w = encode (convCommand a) ∧ CanConvert a s ∧ t = acceptConv a s) ∨ (w = 0x0000000F ∧ t = softReset s) := by
    intro a hw ht
    have hne : w ≠ 0x0000000F := by rw [hw, encode_convCommand]; cases a <;> decide
    by_cases he : s.status.err = true
    · exact .inl ⟨hne, by rw [ht, unlessError, if_pos he]⟩
    · have he' : s.status.err = false := by simpa using he
      rw [unlessError, if_neg he] at ht
      rcases conv_cases a s he' with ⟨c, -, hc⟩ | ⟨hc, hc'⟩
      · exact .inr (.inl ⟨c, hne, he', by rw [ht, hc]⟩)
      · exact .inr (.inr (.inl ⟨a, hw, hc, by rw [ht, hc']⟩))
  unfold execCmd decode at h
  split_ifs at h with h0 h1 h11 hF
  · cases h; exact .inl ⟨by rw [h0]; decide, rfl⟩
  · cases h; exact gated false (by rw [encode_convCommand, h1]; rfl) rfl
  · cases h; exact gated true (by rw [encode_convCommand, h11]; rfl) rfl
  · cases h; exact .inr (.inr (.inr ⟨hF, rfl⟩))
  · cases h
    by_cases he : s.status.err = true
    · exact .inl ⟨hF, by rw [unlessError, if_pos he]⟩
    · exact .inr (.inl ⟨_, hF, by simpa using he, by rw [unlessError, if_neg he]⟩)

end Sys2Proof.Machine
end

