-- ==== Sys2Proof/Tests/Slice0.lean ====
section
/-! SUPPORT. The model's own tests, expected values from 95_test_vectors.md and the worked tables, and for every obligation with hypotheses a witness
that meets them. -/

namespace Sys2Proof.Tests

open Sys2Proof Sys2Proof.Machine

/-! ## Well-formedness: an ill-formed term for each check -/

theorem test_rsv_refused : (FormatC.mk 0x1 0 1).rsvZero = false ∧ (FormatC.mk 0x1 0 1).wellFormed = false := by decide

theorem test_op_refused : (FormatC.mk 0x2 0 0).opDefined = false ∧ (FormatC.mk 0x2 0 0).wellFormed = false ∧
    (FormatC.mk 0xE 0 0).wellFormed = false := by decide

theorem test_format_bit_refused : (FormatC.mk 0xF 1 0).formatBitAllowed = false ∧ (FormatC.mk 0xF 1 0).wellFormed = false ∧
    (FormatC.mk 0x0 1 0).wellFormed = false ∧ (FormatC.mk 0x1 1 0).wellFormed = true := by decide

/-! ## Decoding: words written out bit by bit from R80 and R81, most significant bit first -/

theorem test_decode_nop : decode 0b00000000000000000000000000000000 = .command .nop := by decide

theorem test_decode_conv_rgb : decode 0b00000000000000000000000000000001 = .command .convRgb := by decide

theorem test_decode_conv_rgba : decode 0b00000000000000000000000000010001 = .command .convRgba := by decide

theorem test_decode_srst : decode 0b00000000000000000000000000001111 = .command .srst := by decide

/-- 95_test_vectors.md 2.1, the illegal words. -/
theorem test_decode_illegal :
    [0x00000010, 0x0000001F, 0x00000002, 0x0000000E, 0x00000012, 0x00000021, 0x00000101, 0x80000001, 0xFFFFFFFF].map
        decode =
      [.illegal .formatBit, .illegal .formatBit, .illegal .reservedOp, .illegal .reservedOp, .illegal .reservedOp,
        .illegal .reservedBits, .illegal .reservedBits, .illegal .reservedBits, .illegal .reservedBits] := by decide

/-- R54: the byte at the lowest offset is the least significant. -/
theorem test_bytes : bytesOfWord 0x12345678 = [0x78, 0x56, 0x34, 0x12] ∧
    decodeBytes [0x11, 0x00, 0x00, 0x00] = .command .convRgba ∧ decodeBytes [0x00, 0x00, 0x00, 0x11] = .illegal .reservedBits ∧
    decodeBytes [0x01, 0x00, 0x00] = .illegal .notOneWord := by decide

/-- Every row of the opcode table, and words that are none. -/
theorem test_table_words : decodeTableWord 32 0x0 = some .nop ∧ decodeTableWord 32 0x1 = some .convRgb ∧
    decodeTableWord 32 0x11 = some .convRgba ∧ decodeTableWord 32 0xF = some .srst ∧ decodeTableWord 32 0x2 = none ∧
    decodeTableWord 8 0x11 = some .convRgba ∧ decodeTableWord 64 0x100000001 = none := by decide

/-! ## Small states -/

/-- After reset and the writes `WIDTH`, `HEIGHT`, `IN_LEN`. -/
def setUp (w h : Dim) (len : Word) : State := { State.reset with width := w, height := h, inLen := len }

/-- The smallest frame, ready to convert (R110). -/
def ready : State := setUp 2 2 6

/-- BUSY on the smallest frame, with the pixel `(row, col)` next and these moves to come. -/
def busyAt (a : Bool) (row col : Dim) (moves : List Move) : State :=
  { ready with wLat := 2, hLat := 2, status := ⟨true, false, false, 0, a⟩, pos := ⟨row, col⟩, inbox := moves }

/-- Phase ERROR with cause `DIM_ODD` (95_test_vectors.md 2.7). -/
def failed : State := { setUp 3 2 0 with status := ⟨false, false, true, 4, false⟩ }

/-- The outcome is the next state `t`. -/
def answers (o : Host.Outcome State Fault Refusal) (t : State) : Bool :=
  match o with
  | .next s => decide (s = t)
  | .fault _ => false
  | .refused _ => false

/-! ## Commands (95_test_vectors.md 2.7) -/

theorem test_nop_while_busy : answers (exec .nop (busyAt false 1 0 [])) (busyAt false 1 0 []) = true := by decide

/-- 95_test_vectors.md 2.7, first table: a command before any setup. -/
theorem test_conv_rgb_before_setup : answers (exec .convRgb State.reset) { State.reset with status := ⟨false, false, true, 3, false⟩ } = true := by decide

/-- `DIM_ODD` before `LEN_MISMATCH`; in phase ERROR the command is ignored. -/
theorem test_conv_rgba_odd : answers (exec .convRgba (setUp 3 2 0)) failed = true ∧
    answers (exec .convRgba failed) failed = true := by decide

theorem test_srst_leaves_error : answers (exec .srst failed) State.reset = true := by decide

theorem test_srst_while_busy_draws : exec .srst { busyAt false 1 0 [] with obuf := [(13, 7)] } = .next
    { State.reset with
      obuf := Memory.fill [(13, 7)] (Config.unspecifiedObuf 1) 12
      draws := 2 } := rfl

/-- The checks of 95_test_vectors.md 2.7, `IBUF_BYTES` and `OBUF_BYTES` large: `W`, `H`, `IN_LEN`, format bit, first failed check. -/
theorem test_checks_large :
    convFault 4096 4096 false 0 3 0 false = some .dimZero ∧ convFault 4096 4096 false 3 0 0 false = some .dimZero ∧
    convFault 4096 4096 false 3 2 0 false = some .dimOdd ∧ convFault 4096 4096 false 2 3 9 false = some .dimOdd ∧
    convFault 4096 4096 false 2 2 5 false = some .lenMismatch ∧ convFault 4096 4096 false 2 2 7 true = some .lenMismatch ∧
    convFault 4096 4096 false 2 2 6 false = none ∧ convFault 4096 4096 false 2 2 6 true = none ∧
    convFault 4294967296 4294967296 false 65534 65534 0 false = some .capacity ∧
    convFault 4096 4096 true 0 0 0 false = some .busy := by decide

/-- The same with `IBUF_BYTES = 12`, `OBUF_BYTES = 24`. -/
theorem test_checks_small :
    convFault 12 24 false 4 2 12 false = none ∧ convFault 12 24 false 4 2 12 true = some .capacity ∧
    convFault 12 24 false 4 4 0 false = some .capacity := by decide

/-- `STATUS` after faults and acceptances, as 95_test_vectors.md 2.7 gives it. -/
theorem test_status_values :
    statusWord (enterFault .dimZero State.reset).status = 0x034 ∧ statusWord (enterFault .lenMismatch ready).status = 0x064 ∧
    statusWord (acceptConv false ready).status = 0x001 ∧ statusWord (acceptConv true ready).status = 0x101 ∧
    statusWord (enterFault .illegalCmd ready).status = 0x014 ∧ statusWord (enterFault .busy (busyAt false 0 1 [])).status = 0x024 ∧
    statusWord (enterFault .dimOdd { ready with status := ⟨false, true, false, 0, false⟩ }).status = 0x046 := by decide

/-- 95_test_vectors.md 2.7, the interrupt line. -/
theorem test_irq :
    irqOf { State.reset with status := ⟨false, true, false, 0, false⟩, irqEn := ⟨true, false⟩ } = true ∧
    irqOf { State.reset with status := ⟨false, true, false, 0, false⟩, irqEn := ⟨false, true⟩ } = false ∧
    irqOf { State.reset with status := ⟨false, false, true, 3, false⟩, irqEn := ⟨true, false⟩ } = false ∧
    irqOf { State.reset with status := ⟨false, false, true, 3, false⟩, irqEn := ⟨false, true⟩ } = true ∧
    irqOf { State.reset with status := ⟨true, false, false, 0, false⟩, irqEn := ⟨true, true⟩ } = false := by decide

/-! ## HOST transactions (95_test_vectors.md 2.2) -/

theorem test_write_width : answers (performTxn (.wr 32 0x08 0x00010004) State.reset) { State.reset with width := 4 } = true := by decide

theorem test_write_irq_en : answers (performTxn (.wr 32 0x14 0xFFFFFFFF) State.reset)
    { State.reset with irqEn := ⟨true, true⟩ } = true ∧ irqEnWord ⟨true, true⟩ = 0x00000006 := by decide

theorem test_write_status : answers (performTxn (.wr 32 0x04 0xFFFFFFFF) failed) failed = true := by decide

theorem test_write_reserved : answers (performTxn (.wr 32 0x18 0x12345678) ready) ready = true := by decide

theorem test_read_in_len : readReg { State.reset with inLen := 0xDEADBEEF } 0x10 = 0xDEADBEEF ∧ readReg ready 0xFC = 0 ∧
    readReg ready 0x00 = 0 ∧ readReg failed 0x04 = 0x044 := by decide

theorem test_access_refused : txnDefined (.rd 8 0x04) = false ∧ txnDefined (.rd 32 0x02) = false ∧
    txnDefined (.wr 32 0x100 0) = false ∧ txnDefined (.rd 32 0xFC) = true := by decide

theorem test_ibuf_write_read : ibufByte (storeIbuf State.reset 5 0xAB) 5 = 0xAB ∧
    ibufByte (storeIbuf State.reset 5 0xAB) 6 = Config.unspecifiedIbuf 0 6 := ⟨by decide, rfl⟩

/-- R55: the RGBA pixel `FF 49 48 FF` as a little-endian word. -/
theorem test_little_endian : littleEndian [0xFF, 0x49, 0x48, 0xFF] = 0xFF4849FF ∧
    wideStoreIbuf 3 2 0x1234 = [.stbIbuf 3 0x34, .stbIbuf 4 0x12] ∧
    wideStoreObuf 3 2 0x1234 = [.stbObuf 3 0x34, .stbObuf 4 0x12] := by decide

/-! ## The datapath -/

/-- 41_chroma_upsample.md R141, pixel (3, 2); 95_test_vectors.md 2.4, the last pixel of 1920 x 1080. -/
theorem test_sample_offsets :
    yOffset 4 3 2 = 14 ∧ cidx 3 2 = (1, 1) ∧ uOffset 4 4 1 1 = 19 ∧ vOffset 4 4 1 1 = 23 ∧
    yOffset 1920 1079 1919 = 2073599 ∧ uOffset 1920 1080 539 959 = 2591999 ∧ vOffset 1920 1080 539 959 = 3110399 := by decide

/-- 43_pixel_pack.md R186; 95_test_vectors.md 2.6. -/
theorem test_pixel_offsets : poff 4 1 2 false = 18 ∧ poff 4 1 2 true = 24 ∧ poff 1920 1079 1919 false = 6220797 ∧
    poff 1920 1079 1919 true = 8294396 ∧ fsize 65534 2 = 196602 ∧ osize 65534 2 true = 524272 := by decide

/-- 95_test_vectors.md 2.3. -/
theorem test_shift : [(-70688 : Int), -385, -257, -256, -1, 255, 256, 65535, 136882].map shr8 =
    [-277, -2, -2, -1, -1, 0, 1, 255, 534] := by decide

/-- 95_test_vectors.md 2.5: the extremes, saturated red, cyan. -/
theorem test_csc : csc 255 255 255 = ⟨0xFF, 0x7D, 0xFF⟩ ∧ csc 0 0 0 = ⟨0x00, 0x87, 0x00⟩ ∧
    csc 81 90 240 = ⟨0xFF, 0x00, 0x00⟩ ∧ csc 170 166 16 = ⟨0x00, 0xFF, 0xFF⟩ ∧ csc 144 90 240 = ⟨0xFF, 0x49, 0x48⟩ := by decide

theorem test_csc_bits : cscBits 255 255 255 = ⟨0xFF, 0x7D, 0xFF⟩ ∧ cscBits 0 0 0 = ⟨0x00, 0x87, 0x00⟩ := by decide

/-- The distinct chroma block of 95_test_vectors.md 1.5, by the reference function and by the datapath: pixels (2, 3) and (1, 1). -/
def blockFrame : List Byte := List.replicate 16 0x80 ++ [0x80, 0x80, 0x80, 0xC8, 0x80, 0x80, 0x80, 0x3C]

theorem test_reference_pixel : refPixel 4 4 blockFrame 2 3 = ⟨0x16, 0x9E, 0xFF⟩ ∧ refPixel 4 4 blockFrame 1 1 = ⟨0x82, 0x82, 0x82⟩ := by
  decide

theorem test_datapath_pixel :
    let s : State := { State.reset with wLat := 4, hLat := 4, ibuf := Memory.write [] 0 blockFrame }
    pixelAt s 2 3 = ⟨0x16, 0x9E, 0xFF⟩ ∧ pixelAt s 1 1 = ⟨0x82, 0x82, 0x82⟩ := by decide

/-- 95_test_vectors.md 1.4: one pixel of the all-zero frame in RGBA; then the last pixel ends the conversion (R116). -/
theorem test_pixel_step :
    let zero : Memory := Memory.write [] 0 [0, 0, 0, 0, 0, 0]
    pixelEffect { busyAt true 0 1 [] with ibuf := zero } =
      { busyAt true 1 0 [] with ibuf := zero, obuf := [(4, 0x00), (5, 0x87), (6, 0x00), (7, 0xFF)] } ∧
    (pixelEffect { busyAt false 1 1 [] with ibuf := zero }).status = ⟨false, true, false, 0, false⟩ := by decide

/-- 40_commands.md R115. -/
theorem test_next : nextPos 4 ⟨0, 3⟩ = ⟨1, 0⟩ ∧ nextPos 4 ⟨1, 0⟩ = ⟨1, 1⟩ := by decide

/-- After reset and a reset during BUSY (95_test_vectors.md 2.9). -/
theorem test_hard_reset : hardReset (busyAt true 1 0 []) = { State.reset with bufDraw := 1, draws := 2 } := by decide

/-- The step runs the word put where it takes its next instruction. -/
theorem test_fetch : answers (step (State.reset.withFetchWord 32 0xF)) State.reset = true ∧
    answers (step (State.reset.withFetchWord 32 0x0)) State.reset = true := by decide

/-! ## Witnesses: for each obligation with hypotheses, a state and operands that meet all of them -/

/-- BUSY on the smallest frame with these bytes of `OBUF` written. -/
def going (a : Bool) (row col : Dim) (m : Memory) (moves : List Move) : State := { busyAt a row col moves with obuf := m }

theorem going_size (a : Bool) (row col : Dim) (m : Memory) (moves : List Move) :
    (going a row col m moves).wLat.toNat = 2 ∧ (going a row col m moves).hLat.toNat = 2 := ⟨rfl, rfl⟩

theorem frame_fits (a : Bool) : fsize 2 2 ≤ Config.ibufBytes ∧ osize 2 2 a ≤ Config.obufBytes := by
  have hi := Config.six_le_ibufBytes
  have ho := Config.sixteen_le_obufBytes
  have h1 : fsize 2 2 = 6 := by decide
  have h2 : osize 2 2 a ≤ 16 := by cases a <;> decide
  omega

theorem going_inv (a : Bool) (row col : Dim) (moves : List Move) (hr : row.toNat < 2) (hc : col.toNat < 2) :
    (going a row col [] moves).Inv := by
  have hs := going_size a row col [] moves
  refine ⟨⟨by simp [going, busyAt], by simp [going, busyAt], fun _ => rfl, by simp [going, busyAt]⟩, ?_, rfl, rfl, rfl, rfl⟩
  refine ⟨fun _ => ?_, fun _ => ?_, fun _ => ?_, fun _ => ?_, fun _ => ?_, by simp [going, busyAt]⟩
  · rw [hs.1]; decide
  · rw [hs.2]; decide
  · rw [hs.1, hs.2]; exact (frame_fits a).1
  · rw [hs.1, hs.2]; exact (frame_fits a).2
  · rw [hs.1, hs.2]; exact ⟨hr, hc⟩

theorem ready_can_convert (a : Bool) : CanConvert a ready where
  no_err := rfl
  not_busy := rfl
  width_pos := by decide
  height_pos := by decide
  width_even := by decide
  height_even := by decide
  input_fits := Config.six_le_ibufBytes
  output_fits := by
    have := Config.sixteen_le_obufBytes
    cases a
    · exact Nat.le_trans (by decide : 12 ≤ 16) this
    · exact this
  length_ok := by decide

theorem ready_accepts (a : Bool) : exec (convCommand a) ready = .next (going a 0 0 [] []) := by
  have h := ((canConvert_iff a ready).1 (ready_can_convert a)).2
  cases a <;> simp only [convCommand, exec, execConvRgb, execConvRgba, unlessError, conv, h] <;> rfl

/-- ENGINE's step on the smallest frame. -/
theorem going_step (a : Bool) (row col : Dim) (m : Memory) (rest : List Move) (hr : row.toNat < 2) (hc : col.toNat < 2) :
    step (going a row col m (.engine :: rest)) = .next (pixelEffect (going a row col m rest)) := by
  have hi := Config.six_le_ibufBytes
  have ho := Config.sixteen_le_obufBytes
  have hs := going_size a row col m (.engine :: rest)
  have hp : (going a row col m (.engine :: rest)).pos = ⟨row, col⟩ := rfl
  refine step_pixel (.inl rfl) rfl ?_ ?_ ?_
  · simp [posInFrame, hs, hp, hr, hc]
  · simp only [fetchesInRange, hs, hp, ibufHas, Bool.and_eq_true, decide_eq_true_eq, cidx, yOffset, uOffset, vOffset, ubase, vbase, coff,
      chromaW, ysize, csize, chromaH]
    omega
  · simp only [storeInRange, hs, hp, obufHas, poff, bpp]
    refine decide_eq_true ?_
    generalize (going a row col m (.engine :: rest)).status.alpha = b
    cases b <;> simp only [Bool.toNat_true, Bool.toNat_false] <;> omega

/-- Within the frame a pixel step changes `pos` and `OBUF` and nothing else. -/
theorem going_effect (a : Bool) (m : Memory) (rest : List Move) :
    pixelEffect (going a 0 0 m rest) = going a 0 1 (pixelEffect (going a 0 0 m rest)).obuf rest ∧
    pixelEffect (going a 0 1 m rest) = going a 1 0 (pixelEffect (going a 0 1 m rest)).obuf rest ∧
    pixelEffect (going a 1 0 m rest) = going a 1 1 (pixelEffect (going a 1 0 m rest)).obuf rest := ⟨rfl, rfl, rfl⟩

theorem going_step_to (a : Bool) (m : Memory) (rest : List Move) :
    (∃ m', step (going a 0 0 m (.engine :: rest)) = .next (going a 0 1 m' rest)) ∧
    (∃ m', step (going a 0 1 m (.engine :: rest)) = .next (going a 1 0 m' rest)) ∧
    (∃ m', step (going a 1 0 m (.engine :: rest)) = .next (going a 1 1 m' rest)) := by
  obtain ⟨h1, h2, h3⟩ := going_effect a m rest
  exact ⟨⟨_, (going_step a 0 0 m rest (by decide) (by decide)).trans (congrArg _ h1)⟩,
    ⟨_, (going_step a 0 1 m rest (by decide) (by decide)).trans (congrArg _ h2)⟩,
    ⟨_, (going_step a 1 0 m rest (by decide) (by decide)).trans (congrArg _ h3)⟩⟩

/-- The smallest frame's four pixel steps run. -/
theorem going_runs (a : Bool) (m : Memory) :
    ∃ t : State, Host.Core.run core 4 (going a 0 0 m [.engine, .engine, .engine, .engine]) = .next t := by
  obtain ⟨m1, h1⟩ := (going_step_to a m [.engine, .engine, .engine]).1
  obtain ⟨m2, h2⟩ := (going_step_to a m1 [.engine, .engine]).2.1
  obtain ⟨m3, h3⟩ := (going_step_to a m2 [.engine]).2.2
  exact ⟨pixelEffect (going a 1 1 m3 []),
    run_step h1 (run_step h2 (run_step h3 (run_step (going_step a 1 1 m3 [] (by decide) (by decide)) rfl)))⟩

theorem witness_ExactlyFourWordsAreCommands : (0x00000002 : Word) ≠ 0x00000000 ∧ (0x00000002 : Word) ≠ 0x00000001 ∧
    (0x00000002 : Word) ≠ 0x00000011 ∧ (0x00000002 : Word) ≠ 0x0000000F := by decide

theorem witness_IllegalWordsFaultOrAreIgnored :
    (∃ why, decode 0x00000010 = .illegal why) ∧ { State.reset with inbox := [issue 0x00000010] }.inbox = issue 0x00000010 :: [] ∧
    State.reset.status.err = false ∧ { failed with inbox := [issue 0x00000010] }.inbox = issue 0x00000010 :: [] ∧
    failed.status.err = true := ⟨⟨_, rfl⟩, rfl, rfl, rfl, rfl⟩

theorem witness_SoftResetIsNoSingleBitError : 2 ≤ (0x00000002 : Word).toNat % 16 ∧ (0x00000002 : Word).toNat % 16 ≤ 14 ∧
    2 ≤ (0x0000000E : Word).toNat % 16 ∧ (0x0000000E : Word).toNat % 16 ≤ 14 ∧ Instr.convRgb ≠ .srst := by decide

theorem witness_WordBytesAreLittleEndian : bytesOfWord 0x12345678 = [0x78, 0x56, 0x34, 0x12] := by decide

theorem witness_StepRunsDecodedCommand : decode 0x00000011 = .command .convRgba ∧
    { ready with inbox := [issue 0x00000011, .engine] }.inbox = issue 0x00000011 :: [.engine] := ⟨rfl, rfl⟩

theorem witness_FetchedWordRunsNext : decode 0x0000000F = .command .srst := rfl

theorem witness_AcceptedConversionStarts : CanConvert false ready ∧ CanConvert true ready :=
  ⟨ready_can_convert false, ready_can_convert true⟩

theorem witness_FirstFailedCheckDecidesCause_early :
    (going false 0 0 [] []).status.err = false ∧ (going false 0 0 [] []).status.busy = true ∧
    (setUp 0 3 0).status.busy = false ∧ (setUp 0 3 0).width.toNat = 0 ∧
    (setUp 2 0 0).height.toNat = 0 ∧ (setUp 3 2 0).width.toNat ≠ 0 ∧ (setUp 3 2 0).width.toNat % 2 = 1 ∧
    (setUp 2 65535 9).height.toNat ≠ 0 ∧ (setUp 2 65535 9).height.toNat % 2 = 1 := by decide

/-- The largest frame the registers can name never fits (20_memory.md R61). -/
theorem witness_FirstFailedCheckDecidesCause_capacity :
    let s := setUp 65534 65534 0
    s.status.err = false ∧ s.status.busy = false ∧ s.width.toNat ≠ 0 ∧ s.height.toNat ≠ 0 ∧ s.width.toNat % 2 = 0 ∧ s.height.toNat % 2 = 0 ∧
      (s.width.toNat * s.height.toNat * 3 / 2 > Config.ibufBytes ∨ s.width.toNat * s.height.toNat * (3 + false.toNat) > Config.obufBytes) := by
  have h := Config.ibufBytes_le
  refine ⟨rfl, rfl, by decide, by decide, by decide, by decide, .inl ?_⟩
  have : (setUp 65534 65534 0).width.toNat * (setUp 65534 65534 0).height.toNat * 3 / 2 = 6442057734 := by decide
  omega

/-- The smallest frame with a length one short. -/
theorem witness_FirstFailedCheckDecidesCause_length :
    let s := setUp 2 2 5
    s.status.err = false ∧ s.status.busy = false ∧ s.width.toNat * s.height.toNat * 3 / 2 ≤ Config.ibufBytes ∧
      s.width.toNat * s.height.toNat * (3 + true.toNat) ≤ Config.obufBytes ∧ s.inLen.toNat ≠ s.width.toNat * s.height.toNat * 3 / 2 :=
  ⟨rfl, rfl, Config.six_le_ibufBytes, Config.sixteen_le_obufBytes, by decide⟩

theorem witness_FaultEntryEffect : Memory.wf (going true 1 0 [] []).obuf = true ∧
    (State.reset.status.busy = false ∨ osize 0 0 false ≤ 0) ∧
    ((going true 1 0 [] []).status.busy = false ∨ osize 2 2 true ≤ 16) ∧ Instr.nop ≠ .srst := by decide

theorem witness_CommandsIgnoredInError : failed.status.err = true ∧ Instr.convRgb ≠ .srst := by decide

theorem witness_SoftResetEffect : Memory.wf (going true 1 0 [] []).obuf = true ∧ osize 2 2 true ≤ 16 ∧
    Memory.wf failed.obuf = true ∧ failed.status.busy = false := by decide

theorem witness_CommandFrame : Instr.convRgba ≠ .srst ∧ Memory.wf ready.obuf = true ∧
    exec .convRgba ready = .next (going true 0 0 [] []) ∧ exec .nop failed = .next failed :=
  ⟨by decide, rfl, ready_accepts true, rfl⟩

theorem witness_RegisterReadValues : ∀ off ∈ [0x00, 0x04, 0x08, 0x0C, 0x10, 0x14, 0x18, 0xFC],
    off % 4 = 0 ∧ off < 256 ∧ { ready with inbox := [.host (.rd 32 off)] }.inbox = [.host (.rd 32 off)] := by decide

theorem witness_RegisterWriteEffects : ∀ off ∈ [0x04, 0x08, 0x0C, 0x10, 0x14, 0x18, 0xFC],
    off % 4 = 0 ∧ off < 256 ∧ off ≠ 0x00 ∧
      { ready with inbox := [.host (.wr 32 off 0xFFFFFFFF)] }.inbox = [.host (.wr 32 off 0xFFFFFFFF)] := by decide

theorem witness_BufferReadValues :
    0 < Config.ibufBytes ∧ Config.ibufBytes - 1 < Config.ibufBytes ∧ Config.obufBytes - 1 < Config.obufBytes ∧
    { ready with inbox := [.host (.ldbIbuf (Config.ibufBytes - 1))] }.inbox = [.host (.ldbIbuf (Config.ibufBytes - 1))] ∧
    { ready with inbox := [.host (.ldbObuf (Config.obufBytes - 1))] }.inbox = [.host (.ldbObuf (Config.obufBytes - 1))] := by
  have h := Config.six_le_ibufBytes
  have h' := Config.sixteen_le_obufBytes
  exact ⟨by omega, by omega, by omega, rfl, rfl⟩

theorem witness_BufferWriteEffects : Memory.wf ready.ibuf = true ∧ 5 < Config.ibufBytes ∧ 15 < Config.obufBytes ∧
    { ready with inbox := [.host (.stbIbuf 5 0xAB)] }.inbox = [.host (.stbIbuf 5 0xAB)] ∧
    { ready with inbox := [.host (.stbObuf 15 0x55)] }.inbox = [.host (.stbObuf 15 0x55)] :=
  ⟨rfl, Config.six_le_ibufBytes, Config.sixteen_le_obufBytes, rfl, rfl⟩

theorem witness_WideAccessIsByteAccesses : (Memory.wf ready.ibuf = true ∧ 2 + 4 ≤ Config.ibufBytes ∧ 3 < 4) ∧
    13 + 3 ≤ Config.obufBytes ∧ 2 < 3 :=
  ⟨⟨rfl, Config.six_le_ibufBytes, by decide⟩, Config.sixteen_le_obufBytes, by decide⟩

theorem witness_UndefinedAccessesAreRefused :
    (∀ t ∈ [Txn.rd 8 0, .rd 32 2, .rd 32 256, .wr 16 4 0, .wr 32 3 0, .wr 32 0x100 0, .ldbIbuf Config.ibufBytes,
        .stbIbuf Config.ibufBytes 0, .ldbObuf Config.obufBytes, .stbObuf Config.obufBytes 0],
      { ready with inbox := [.host t] }.inbox = [.host t] ∧ txnDefined t = false) ∧
    txnDefined (.stbIbuf 0 0) = true := by
  have h := Config.six_le_ibufBytes
  refine ⟨?_, by simp [txnDefined, ibufHas]; omega⟩
  intro t ht
  refine ⟨rfl, ?_⟩
  fin_cases ht <;> simp [txnDefined, regAccessDefined, ibufHas, obufHas]

theorem witness_HiddenStateIsNotReadable :
    step { going false 0 0 [] [] with inbox := [.host (.rd 32 0x04)] } =
      .next { going false 0 0 [] [] with reply := .word 0x001 } ∧
    step { going false 0 0 [] [] with wLat := 8, hLat := 4, pos := ⟨3, 1⟩, inbox := [.host (.rd 32 0x04)] } =
      .next { going false 0 0 [] [] with wLat := 8, hLat := 4, pos := ⟨3, 1⟩, reply := .word 0x001 } := ⟨rfl, rfl⟩

theorem witness_ReadableStatusValues : (going true 1 1 [] []).StatusInv := (going_inv true 1 1 [] (by decide) (by decide)).status

theorem failed_status_inv : failed.StatusInv := ⟨by decide, by decide, by decide, by decide⟩

theorem witness_HardwareResetEffect : (going true 1 0 [] [.reset]).inbox = .reset :: [] := rfl

theorem witness_StepKeepsInvariants : (going true 1 1 [] [.engine]).Inv ∧
    step (going true 1 1 [] [.engine]) = .next (pixelEffect (going true 1 1 [] [])) :=
  ⟨going_inv true 1 1 _ (by decide) (by decide), going_step true 1 1 [] [] (by decide) (by decide)⟩

theorem witness_StepKeepsStatusInvariants : (going true 0 1 [] [.engine]).StatusInv ∧
    step (going true 0 1 [] [.engine]) = .next (pixelEffect (going true 0 1 [] [])) :=
  ⟨(going_inv true 0 1 _ (by decide) (by decide)).status, going_step true 0 1 [] [] (by decide) (by decide)⟩

theorem witness_StepKeepsFrameInvariants : (going false 1 0 [] [.engine]).FrameInv ∧
    step (going false 1 0 [] [.engine]) = .next (pixelEffect (going false 1 0 [] [])) :=
  ⟨(going_inv false 1 0 _ (by decide) (by decide)).frame, going_step false 1 0 [] [] (by decide) (by decide)⟩

theorem witness_OnlyCommandWritesFault : (going false 1 0 [] [.engine]).Inv ∧
    step (going false 1 0 [] [.engine]) = .next (pixelEffect (going false 1 0 [] [])) ∧
    (going false 1 0 [] [.engine]).resetNext = false ∧ ∀ w, (going false 1 0 [] [.engine]).issues w = false :=
  ⟨going_inv false 1 0 _ (by decide) (by decide), going_step false 1 0 [] [] (by decide) (by decide), rfl, fun _ => rfl⟩

theorem witness_ErrorLeftOnlyByReset : failed.StatusInv ∧ failed.status.err = true ∧ step failed = .next failed ∧
    failed.resetNext = false ∧ failed.issues 0x0000000F = false ∧
    (∃ t, step { failed with inbox := [.reset] } = .next t ∧ { failed with inbox := [.reset] }.resetNext = true) ∧
    (∃ t, step { failed with inbox := [issue 0x0000000F] } = .next t ∧
      { failed with inbox := [issue 0x0000000F] }.issues 0x0000000F = true) :=
  ⟨failed_status_inv, rfl, rfl, rfl, rfl, ⟨_, rfl, rfl⟩, ⟨_, rfl, rfl⟩⟩

theorem witness_InputBufferChangesOnlyByHost : Memory.wf ready.ibuf = true ∧
    (∃ t, step { ready with inbox := [.host (.stbIbuf 5 1)] } = .next t) ∧
    { ready with inbox := [.host (.stbIbuf 5 1)] }.resetNext = false ∧
    ∀ b, { ready with inbox := [.host (.stbIbuf 5 1)] }.inbox.head? ≠ some (.host (.stbIbuf 0 b)) := by
  have h := Config.six_le_ibufBytes
  refine ⟨rfl, ⟨_, (step_host rfl).trans (runTxn_defined _ ?_)⟩, rfl, fun b e => ?_⟩
  · simp [txnDefined, ibufHas]; omega
  · simp at e

theorem witness_OutputBufferStableWhenNotBusy : failed.status.busy = false ∧
    step { failed with inbox := [issue 0x0000000F] } = .next State.reset ∧
    { failed with inbox := [issue 0x0000000F] }.resetNext = false := ⟨rfl, rfl, rfl⟩

theorem witness_OutputBufferTailIsUntouched : (going true 1 1 [] [.engine]).Inv ∧
    step (going true 1 1 [] [.engine]) = .next (pixelEffect (going true 1 1 [] [])) ∧
    (going true 1 1 [] [.engine]).resetNext = false ∧ osize 2 2 true ≤ 16 :=
  ⟨going_inv true 1 1 _ (by decide) (by decide), going_step true 1 1 [] [] (by decide) (by decide), rfl, by decide⟩

theorem witness_RunningConversionKeepsGeometry : (going true 1 0 [] []).status.busy = true ∧
    step (going true 1 0 [] [.host (.wr 32 0x08 8)]) = .next { going true 1 0 [] [] with width := 8 } ∧
    { going true 1 0 [] [] with width := 8 }.status.busy = true := ⟨rfl, rfl, rfl⟩

theorem witness_BusySetOnlyByAcceptance : ready.status.busy = false ∧
    step { ready with inbox := [issue 0x00000011] } = .next (going true 0 0 [] []) ∧ (going true 0 0 [] []).status.busy = true :=
  ⟨rfl, ready_accepts true, rfl⟩

theorem witness_DoneSetOnlyByLastPixel : (going false 1 1 [] [.engine]).status.done = false ∧
    step (going false 1 1 [] [.engine]) = .next (pixelEffect (going false 1 1 [] [])) ∧
    (pixelEffect (going false 1 1 [] [])).status.done = true :=
  ⟨rfl, going_step false 1 1 [] [] (by decide) (by decide), rfl⟩

theorem witness_EngineStepsExactlyWhenBusy :
    (ready.inbox = [] ∧ ready.status.busy = false) ∧
    ((going false 0 1 [] [.engine]).inbox = .engine :: [] ∧ (going false 0 1 [] [.engine]).Inv ∧
      (going false 0 1 [] [.engine]).status.busy = true) :=
  ⟨⟨rfl, rfl⟩, rfl, going_inv false 0 1 _ (by decide) (by decide), rfl⟩

theorem witness_PixelStepConvertsOnePixel : (going true 1 0 [] [.engine]).Inv ∧ (going true 1 0 [] [.engine]).status.busy = true ∧
    (going true 1 0 [] [.engine]).status.alpha = true :=
  ⟨going_inv true 1 0 _ (by decide) (by decide), rfl, rfl⟩

/-- One pixel for each clause: within a row, at the end of a row, the last. -/
theorem witness_SequencerWalksRasterOrder :
    ((going true 0 0 [] [.engine]).Inv ∧ (0 + 1 < 2)) ∧ ((going true 0 1 [] [.engine]).Inv ∧ 1 + 1 = 2 ∧ 0 + 1 < 2) ∧
    ((going true 1 1 [] [.engine]).Inv ∧ 1 + 1 = 2 ∧ 1 + 1 = 2) :=
  ⟨⟨going_inv true 0 0 _ (by decide) (by decide), by decide⟩, ⟨going_inv true 0 1 _ (by decide) (by decide), by decide⟩,
    ⟨going_inv true 1 1 _ (by decide) (by decide), by decide⟩⟩

theorem witness_EngineAddressesAreInRange : 4 % 2 = 0 ∧ 2 % 2 = 0 ∧ 1 < 2 ∧ 3 < 4 ∧ 3 < bpp true := by decide

theorem witness_ChromaElementServesItsBlock : 4 % 2 = 0 ∧ 2 % 2 = 0 ∧ 0 < 2 / 2 ∧ 1 < 4 / 2 ∧ 1 < 2 ∧ 3 < 4 := by decide

/-- A pixel of the block, and one outside. -/
theorem witness_ChromaChangeStaysInItsBlock :
    let s : State := { State.reset with wLat := 4, hLat := 2 }
    Memory.wf s.ibuf = true ∧ s.wLat.toNat % 2 = 0 ∧ s.hLat.toNat % 2 = 0 ∧ 0 < s.hLat.toNat / 2 ∧ 1 < s.wLat.toNat / 2 ∧
      1 < s.hLat.toNat ∧ 3 < s.wLat.toNat ∧ (1 / 2 = 0 ∧ 3 / 2 = 1) ∧ 1 < s.wLat.toNat ∧ ¬(1 / 2 = 0 ∧ 1 / 2 = 1) := by decide

theorem witness_EachOutputByteHasOneOwner : 31 < osize 4 2 true := by decide

theorem witness_TransformMonotone : (0 : Byte) ≤ 255 := by decide

theorem witness_ClampSaturates : (-1 : Int) < 0 ∧ (256 : Int) > 255 ∧ (0 : Int) ≤ 255 ∧ (255 : Int) ≤ 255 := by decide

theorem witness_GreyAxis : (16 : Byte).toNat ≤ 16 ∧ 235 ≤ (235 : Byte).toNat := by decide

/-- Moves R121 allows: a `NOP`, a poll, and a write of the geometry for the next frame. -/
def quietMoves : List Move :=
  [.host (.wr 32 0x00 0), .engine, .host (.rd 32 0x04), .engine, .host (.wr 32 0x08 8), .engine]

theorem witness_ConversionComputesReferenceFunction (a : Bool) : ready.BufferInv ∧ CanConvert a ready ∧
    exec (convCommand a) ready = .next (going a 0 0 [] []) ∧ (∀ m ∈ quietMoves, moveQuiet (fsize 2 2) m = true) ∧
    engineMoves quietMoves + 1 = 2 * 2 :=
  ⟨⟨rfl, rfl, rfl, rfl⟩, ready_can_convert a, ready_accepts a, by decide, by decide⟩

theorem witness_ConversionProgress (a : Bool) : ready.BufferInv ∧ CanConvert a ready ∧
    exec (convCommand a) ready = .next (going a 0 0 [] []) ∧ (∀ m ∈ quietMoves, moveQuiet (fsize 2 2) m = true) ∧
    engineMoves quietMoves < 2 * 2 :=
  ⟨⟨rfl, rfl, rfl, rfl⟩, ready_can_convert a, ready_accepts a, by decide, by decide⟩

/-- The same frame over two different earlier contents of `OBUF`. -/
theorem witness_FramesAreIndependent (a : Bool) :
    let s' : State := { ready with obuf := [(0, 0x55)] }
    ready.BufferInv ∧ s'.BufferInv ∧ CanConvert a ready ∧ CanConvert a s' ∧
    exec (convCommand a) ready = .next (going a 0 0 [] []) ∧ exec (convCommand a) s' = .next (going a 0 0 [(0, 0x55)] []) ∧
    (∀ k, k < fsize 2 2 → ibufByte s' k = ibufByte ready k) ∧
    (∀ m ∈ [Move.engine, .engine, .engine], moveQuiet (fsize 2 2) m = true) ∧ engineMoves [.engine, .engine, .engine] + 1 = 2 * 2 ∧
    (∃ t : State, Host.Core.run core 4 (going a 0 0 [] ([.engine, .engine, .engine] ++ [.engine])) = .next t) ∧
    ∃ t : State, Host.Core.run core 4 (going a 0 0 [(0, 0x55)] ([.engine, .engine, .engine] ++ [.engine])) = .next t := by
  have hc := ready_can_convert a
  have hc' : CanConvert a { ready with obuf := [(0, 0x55)] } := ⟨hc.1, hc.2, hc.3, hc.4, hc.5, hc.6, hc.7, hc.8, hc.9⟩
  have ho := Config.sixteen_le_obufBytes
  refine ⟨⟨rfl, rfl, rfl, rfl⟩, ⟨rfl, rfl, rfl, ?_⟩, hc, hc', ready_accepts a, ?_, fun _ _ => rfl, by decide, by decide,
    going_runs a [], going_runs a [(0, 0x55)]⟩
  · simp [Memory.within]; omega
  · have h := ((canConvert_iff a _).1 hc').2
    cases a <;> simp only [convCommand, exec, execConvRgb, execConvRgba, unlessError, conv, h] <;> rfl

theorem witness_ConversionTerminates : (going true 1 0 [] []).Inv ∧ (going true 1 0 [] []).status.busy = true ∧
    (going true 1 0 [] []).inbox = [] := ⟨going_inv true 1 0 _ (by decide) (by decide), rfl, rfl⟩

theorem witness_PixelOrderDoesNotMatter :
    let s : State := { State.reset with wLat := 2, hLat := 2, status := ⟨false, false, false, 0, true⟩ }
    Memory.wf s.obuf = true ∧ s.wLat.toNat % 2 = 0 ∧ s.hLat.toNat % 2 = 0 ∧
      [(1, 1), (0, 1), (1, 0), (0, 0)].Perm (rasterPixels s.wLat.toNat s.hLat.toNat) := by decide

theorem witness_BootSequenceConvertsFrame : 0 < 2 ∧ 2 % 2 = 0 ∧ 2 < 65536 ∧ fsize 2 2 ≤ Config.ibufBytes ∧
    osize 2 2 true ≤ Config.obufBytes ∧ (List.replicate 6 (0x10 : Byte)).length = fsize 2 2 :=
  ⟨by decide, by decide, by decide, Config.six_le_ibufBytes, Config.sixteen_le_obufBytes, by decide⟩

end Sys2Proof.Tests
end

section
/-! PROOFS. What one step does, as one case analysis that names the move taken; what it leaves of the registers and buffers. -/

namespace Sys2Proof.Machine

/-! ## The state after the move is taken off the list -/

/-- `s` with the next move taken off the moves to come and `r` as the last reply: what every step's effect starts from. -/
def State.taken (s : State) (r : Reply) : State := { s with inbox := s.inbox.tail, reply := r }

section taken
variable (s : State) (r : Reply)

@[simp] theorem taken_status : (s.taken r).status = s.status := rfl
@[simp] theorem taken_width : (s.taken r).width = s.width := rfl
@[simp] theorem taken_height : (s.taken r).height = s.height := rfl
@[simp] theorem taken_inLen : (s.taken r).inLen = s.inLen := rfl
@[simp] theorem taken_irqEn : (s.taken r).irqEn = s.irqEn := rfl
@[simp] theorem taken_wLat : (s.taken r).wLat = s.wLat := rfl
@[simp] theorem taken_hLat : (s.taken r).hLat = s.hLat := rfl
@[simp] theorem taken_pos : (s.taken r).pos = s.pos := rfl
@[simp] theorem taken_ibuf : (s.taken r).ibuf = s.ibuf := rfl
@[simp] theorem taken_obuf : (s.taken r).obuf = s.obuf := rfl
@[simp] theorem taken_bufDraw : (s.taken r).bufDraw = s.bufDraw := rfl
@[simp] theorem taken_draws : (s.taken r).draws = s.draws := rfl
@[simp] theorem taken_inbox : (s.taken r).inbox = s.inbox.tail := rfl
@[simp] theorem taken_reply : (s.taken r).reply = r := rfl

end taken

/-! ## Register writes -/

section writeReg
variable (s : State) (off : Nat) (v : Word)

theorem writeReg_status :
    (writeReg s off v).status = if off = 0x04 then writeOneToClear s.status v else s.status := by
  unfold writeReg; split_ifs <;> rfl
@[simp] theorem writeReg_wLat : (writeReg s off v).wLat = s.wLat := by
  unfold writeReg; split_ifs <;> rfl
@[simp] theorem writeReg_hLat : (writeReg s off v).hLat = s.hLat := by
  unfold writeReg; split_ifs <;> rfl
@[simp] theorem writeReg_pos : (writeReg s off v).pos = s.pos := by
  unfold writeReg; split_ifs <;> rfl
@[simp] theorem writeReg_ibuf : (writeReg s off v).ibuf = s.ibuf := by
  unfold writeReg; split_ifs <;> rfl
@[simp] theorem writeReg_obuf : (writeReg s off v).obuf = s.obuf := by
  unfold writeReg; split_ifs <;> rfl
@[simp] theorem writeReg_bufDraw : (writeReg s off v).bufDraw = s.bufDraw := by
  unfold writeReg; split_ifs <;> rfl
@[simp] theorem writeReg_inbox : (writeReg s off v).inbox = s.inbox := by
  unfold writeReg; split_ifs <;> rfl

end writeReg

/-- The write clears `DONE` when bit 1 is set, and touches no other flag. -/
@[simp] theorem writeOneToClear_eq (st : Status) (v : Word) :
    writeOneToClear st v = ⟨st.busy, st.done && !v.getLsbD 1, st.err, st.cause, st.alpha⟩ := by
  unfold writeOneToClear
  cases hv : v.getLsbD 1 <;> simp

@[simp] theorem writeReg_busy (s : State) (off : Nat) (v : Word) :
    (writeReg s off v).status.busy = s.status.busy := by
  rw [writeReg_status]; split_ifs <;> simp
@[simp] theorem writeReg_alpha (s : State) (off : Nat) (v : Word) :
    (writeReg s off v).status.alpha = s.status.alpha := by
  rw [writeReg_status]; split_ifs <;> simp

/-- A register write never sets `DONE`. -/
theorem done_of_writeReg {s : State} {off : Nat} {v : Word} (h : (writeReg s off v).status.done = true) :
    s.status.done = true := by
  rw [writeReg_status] at h
  split_ifs at h
  · rw [writeOneToClear_eq] at h
    exact (Bool.and_eq_true_iff.1 h).1
  · exact h

/-! ## One step -/

/-- What a step from `s` can answer, one constructor per kind of move. A step from `s` that answers `t` gives `StepEffect s t`
(`stepEffect_of_step`). -/
inductive StepEffect (s : State) : State → Prop where
  /-- ENGINE is scheduled and has no step. -/
  | idle : EngineNext s s.inbox.tail → s.status.busy = false → StepEffect s (s.taken s.reply)
  /-- ENGINE's pixel step, whose asserted facts hold. -/
  | pixel : EngineNext s s.inbox.tail → s.status.busy = true → posInFrame s = true → fetchesInRange s = true →
      storeInRange s = true → StepEffect s (pixelEffect (s.taken s.reply))
  /-- A hardware reset. -/
  | reset : s.inbox.head? = some .reset → StepEffect s (hardReset (s.taken s.reply))
  /-- A HOST transaction that changes nothing but the reply. -/
  | quiet (x : Txn) (r : Reply) : s.inbox.head? = some (.host x) → StepEffect s (s.taken r)
  /-- A HOST write to `IBUF`. -/
  | ibufWrite (off : Nat) (b : Byte) : s.inbox.head? = some (.host (.stbIbuf off b)) → off < Config.ibufBytes →
      StepEffect s (storeIbuf (s.taken .none) off b)
  /-- A HOST write to a register other than `CMD`. -/
  | regWrite (bits off : Nat) (v : Word) : s.inbox.head? = some (.host (.wr bits off v)) → off ≠ 0x00 →
      StepEffect s (writeReg (s.taken .none) off v)
  /-- A command word that faults. -/
  | fault (w : Word) (c : Cause) : s.inbox.head? = some (issue w) → w ≠ 0 → w ≠ 0x0000000F → s.status.err = false →
      StepEffect s (enterFault c (s.taken .none))
  /-- A conversion command that is accepted. -/
  | accept (a : Bool) : s.inbox.head? = some (issue (encode (convCommand a))) → CanConvert a s →
      StepEffect s (acceptConv a (s.taken .none))
  /-- `SRST`. -/
  | srst : s.inbox.head? = some (issue 0x0000000F) → StepEffect s (softReset (s.taken .none))

theorem EngineNext.tail {s : State} {rest : List Move} (h : EngineNext s rest) : rest = s.inbox.tail := by
  rcases h with h | ⟨h, rfl⟩ <;> rw [h] <;> rfl

theorem EngineNext.head {s : State} {rest : List Move} (h : EngineNext s rest) :
    s.inbox = [] ∨ s.inbox.head? = some .engine := by
  rcases h with h | ⟨h, -⟩
  · exact .inr (by rw [h]; rfl)
  · exact .inl h

theorem not_engineNext {s : State} {m : Move} {rest : List Move} (hh : s.inbox.head? = some m) (hm : m ≠ .engine) :
    ¬EngineNext s rest := by
  intro hn
  rcases hn.head with e | e
  · simp [e] at hh
  · exact hm (Option.some.inj (hh.symm.trans e))

/-- A conversion command's checks do not look at the moves to come or the reply. -/
theorem canConvert_taken_iff {a : Bool} {s : State} {r : Reply} : CanConvert a (s.taken r) ↔ CanConvert a s := by
  simp only [canConvert_iff]
  exact Iff.rfl

/-- `NOP` written to `CMD`. -/
theorem execCmd_zero (s : State) : execCmd 0 s = .next s := rfl

/-- What a write to `CMD` of any word can do. -/
theorem stepEffect_of_execCmd {s t : State} {w : Word} (hh : s.inbox.head? = some (issue w))
    (h : execCmd w (s.taken .none) = .next t) : StepEffect s t := by
  by_cases hw : w = 0
  · rw [hw, execCmd_zero] at h
    cases h
    exact .quiet _ _ hh
  rcases execCmd_cases h with ⟨-, rfl⟩ | ⟨c, hF, he, rfl⟩ | ⟨a, rfl, hc, rfl⟩ | ⟨rfl, rfl⟩
  · exact .quiet _ _ hh
  · exact .fault w c hh hw hF he
  · exact .accept a hh (canConvert_taken_iff.1 hc)
  · exact .srst hh

/-- A register write that is defined is 32 bits wide. -/
theorem bits_eq_of_txnDefined {bits off : Nat} {v : Word} (h : txnDefined (.wr bits off v) = true) : bits = 32 := by
  simp only [txnDefined, regAccessDefined, Bool.and_eq_true, beq_iff_eq] at h
  exact h.1.1

/-- What a HOST transaction can do. -/
theorem stepEffect_of_performTxn {s t : State} {x : Txn} (hh : s.inbox.head? = some (.host x)) (hd : txnDefined x = true)
    (h : performTxn x (s.taken .none) = .next t) : StepEffect s t := by
  rcases performTxn_cases h with ⟨r, rfl, -, -⟩ | ⟨off, b, rfl, rfl⟩ | ⟨bits, off, v, rfl, ho, rfl⟩ | ⟨bits, w, rfl, hx⟩
  · exact .quiet x r hh
  · exact .ibufWrite off b hh (of_decide_eq_true hd)
  · exact .regWrite bits off v hh ho
  · rw [bits_eq_of_txnDefined hd] at hh
    exact stepEffect_of_execCmd hh hx

/-- Every step that answers a next state is one of the kinds of `StepEffect`. -/
theorem stepEffect_of_step {s t : State} (h : step s = .next t) : StepEffect s t := by
  rcases step_cases h with ⟨rest, hn, hb, rfl⟩ | ⟨rest, hn, hb, h1, h2, h3, rfl⟩ | ⟨rest, hi, rfl⟩ | ⟨x, rest, hi, hd, hx⟩
  · obtain rfl := hn.tail
    exact .idle hn hb
  · obtain rfl := hn.tail
    exact .pixel hn hb h1 h2 h3
  · obtain rfl : rest = s.inbox.tail := by rw [hi]; rfl
    exact .reset (by rw [hi]; rfl)
  · obtain rfl : rest = s.inbox.tail := by rw [hi]; rfl
    exact stepEffect_of_performTxn (by rw [hi]; rfl) hd hx

theorem resetNext_iff {s : State} : s.resetNext = true ↔ s.inbox.head? = some .reset := by
  simp [State.resetNext]

/-- When a hardware reset is the next move, the step is that reset. -/
theorem StepEffect.eq_hardReset {s t : State} (h : StepEffect s t) (hr : s.resetNext = true) :
    t = hardReset (s.taken s.reply) := by
  rw [resetNext_iff] at hr
  cases h with
  | reset => rfl
  | idle hn => exact absurd hn (not_engineNext hr (by simp))
  | pixel hn => exact absurd hn (not_engineNext hr (by simp))
  | _ => simp_all [issue]

/-! ## What a step does to the buffers -/

/-- The unwritten bytes of both buffers change only at a hardware reset. -/
theorem StepEffect.bufDraw_eq {s t : State} (h : StepEffect s t) (hr : s.resetNext = false) : t.bufDraw = s.bufDraw := by
  cases h with
  | reset hh => simp [resetNext_iff.2 hh] at hr
  | _ => simp

/-- Besides a hardware reset, only a HOST write to `IBUF` changes it. -/
theorem StepEffect.ibuf_cases {s t : State} (h : StepEffect s t) (hr : s.resetNext = false) :
    t.ibuf = s.ibuf ∨ ∃ off b, s.inbox.head? = some (.host (.stbIbuf off b)) ∧ off < Config.ibufBytes ∧
      t.ibuf = Memory.set s.ibuf off b := by
  cases h with
  | reset hh => simp [resetNext_iff.2 hh] at hr
  | ibufWrite off b hh ho => exact .inr ⟨off, b, hh, ho, rfl⟩
  | _ => exact .inl (by simp)

/-- The byte of `IBUF` at `k` after a step that is no hardware reset and no HOST write to `k`. -/
theorem StepEffect.ibufByte_eq {s t : State} (h : StepEffect s t) (hr : s.resetNext = false) {k : Nat}
    (hw : Memory.wf s.ibuf = true) (hk : ∀ b, s.inbox.head? ≠ some (.host (.stbIbuf k b))) : ibufByte t k = ibufByte s k := by
  rcases h.ibuf_cases hr with hi | ⟨off, b, hh, -, hi⟩
  · exact ibufByte_congr hi (h.bufDraw_eq hr) k
  · have hne : k ≠ off := fun e => hk b (by rw [e]; exact hh)
    calc ibufByte t k = ibufByte (storeIbuf s off b) k := ibufByte_congr (s := storeIbuf s off b) hi (h.bufDraw_eq hr) k
      _ = ibufByte s k := by rw [ibufByte_storeIbuf _ _ _ hw, if_neg hne]

/-- The pixel step's store: the transform of the pixel at `pos`, put at its place. -/
def storeAtPos (s : State) : State := pstore s s.pos.row.toNat s.pos.col.toNat (pixelAt s s.pos.row.toNat s.pos.col.toNat)

/-- Besides a hardware reset, only a pixel step and the abort of a running conversion change `OBUF`. -/
theorem StepEffect.obuf_cases {s t : State} (h : StepEffect s t) (hr : s.resetNext = false) :
    t.obuf = s.obuf ∨ (s.status.busy = true ∧ posInFrame s = true ∧ storeInRange s = true ∧ t.obuf = (storeAtPos s).obuf) ∨
      (s.status.busy = true ∧ t.obuf = (abortFrame s).obuf) := by
  have abort : ∀ u : State, u.obuf = (abortFrame (s.taken .none)).obuf →
      u.obuf = s.obuf ∨ (s.status.busy = true ∧ u.obuf = (abortFrame s).obuf) := by
    intro u hu
    cases hb : s.status.busy with
    | false => exact .inl (by rw [hu, abortFrame_idle (by exact hb), taken_obuf])
    | true => exact .inr ⟨rfl, by rw [hu, abortFrame_obuf, abortFrame_obuf]; rfl⟩
  cases h with
  | reset hh => simp [resetNext_iff.2 hh] at hr
  | pixel _ hb hp _ hs => exact .inr (.inl ⟨hb, hp, hs, by rw [pixelEffect_obuf]; rfl⟩)
  | fault w c => exact (abort _ (by simp)).imp_right .inr
  | srst => exact (abort _ (by simp)).imp_right .inr
  | _ => exact .inl (by simp)

end Sys2Proof.Machine
end

section
/-! PROOFS. The invariants of `STATUS` (R30), of the latched geometry and `pos` (R25, R27) and of the buffers (R50): each holds after reset and every
step keeps it. -/

namespace Sys2Proof.Machine

/-! ## `STATUS` -/

/-- The invariants of `STATUS` speak of nothing else. -/
theorem State.StatusInv.congr {s t : State} (h : s.StatusInv) (e : t.status = s.status) : t.StatusInv := by
  obtain ⟨h1, h2, h3, h4⟩ := h
  exact ⟨e ▸ h1, e ▸ h2, e ▸ h3, e ▸ h4⟩

/-- Every cause has a code from 1 to 6 (R190). -/
theorem causeCode_range (c : Cause) : 1 ≤ (causeCode c).toNat ∧ (causeCode c).toNat ≤ 6 := by
  cases c <;> decide

theorem statusInv_of_zero {t : State} (h : t.status = ⟨false, false, false, 0, false⟩) : t.StatusInv := by
  constructor <;> simp [h]

theorem statusInv_writeOneToClear {s t : State} {v : Word} (h : s.StatusInv) (e : t.status = writeOneToClear s.status v) :
    t.StatusInv where
  busy_not_done := by
    rw [e, writeOneToClear_eq]
    exact fun hb => h.busy_not_done ⟨hb.1, (Bool.and_eq_true_iff.1 hb.2).1⟩
  busy_not_err := by rw [e, writeOneToClear_eq]; exact h.busy_not_err
  cause_zero := by rw [e, writeOneToClear_eq]; exact h.cause_zero
  cause_code := by rw [e, writeOneToClear_eq]; exact h.cause_code

theorem statusInv_finish {s : State} (h : s.StatusInv) : (finish s).StatusInv where
  busy_not_done := by simp
  busy_not_err := by simp
  cause_zero := h.cause_zero
  cause_code := h.cause_code

theorem statusInv_pixelEffect {s : State} (h : s.StatusInv) : (pixelEffect s).StatusInv := by
  by_cases hl : atLastPixel s = true
  · exact (statusInv_finish h).congr (by rw [pixelEffect_status, if_pos hl, finish_status])
  · exact h.congr (by rw [pixelEffect_status, if_neg hl])

theorem statusInv_enterFault (s : State) (c : Cause) : (enterFault c s).StatusInv where
  busy_not_done := by simp
  busy_not_err := by simp
  cause_zero := by simp
  cause_code := fun _ => by rw [enterFault_status]; exact causeCode_range c

theorem statusInv_acceptConv {s : State} (a : Bool) (h : s.StatusInv) (he : s.status.err = false) :
    (acceptConv a s).StatusInv where
  busy_not_done := by simp
  busy_not_err := by simp [he]
  cause_zero := h.cause_zero
  cause_code := h.cause_code

theorem StepEffect.statusInv {s t : State} (h : StepEffect s t) (hs : s.StatusInv) : t.StatusInv := by
  cases h with
  | idle | quiet | ibufWrite => exact hs.congr rfl
  | pixel => exact statusInv_pixelEffect (hs.congr rfl)
  | reset => exact statusInv_of_zero rfl
  | regWrite bits off v =>
    by_cases ho : off = 0x04
    · exact statusInv_writeOneToClear hs (by rw [writeReg_status, if_pos ho, taken_status])
    · exact hs.congr (by rw [writeReg_status, if_neg ho, taken_status])
  | fault w c => exact statusInv_enterFault _ c
  | accept a _ hc => exact statusInv_acceptConv a (hs.congr rfl) hc.no_err
  | srst => exact statusInv_of_zero (softReset_status _)

theorem statusWord_lt (st : Status) : (statusWord st).toNat < 512 := by
  have := st.cause.isLt
  have := Bool.toNat_le st.busy
  have := Bool.toNat_le st.done
  have := Bool.toNat_le st.err
  have := Bool.toNat_le st.alpha
  rw [statusWord_toNat]
  omega

/-- A bit of `STATUS`, by arithmetic on the flags. -/
theorem statusWord_getLsbD (st : Status) (i : Nat) :
    (statusWord st).getLsbD i = decide ((st.busy.toNat + 2 * st.done.toNat + 4 * st.err.toNat + 16 * st.cause.toNat +
      256 * st.alpha.toNat) / 2 ^ i % 2 = 1) := by
  rw [BitVec.getLsbD, Nat.testBit_eq_decide_div_mod_eq, statusWord_toNat]

/-- Bit 3 of `STATUS` is hardwired 0 (R29). -/
theorem statusWord_bit3 (st : Status) : (statusWord st).getLsbD 3 = false := by
  have := Bool.toNat_le st.busy
  have := Bool.toNat_le st.done
  have := Bool.toNat_le st.err
  rw [statusWord_getLsbD]
  exact decide_eq_false (by omega)

/-! ## The latched geometry and `pos` -/

/-- The frame invariants speak only of `BUSY`, `ALPHA`, the latched geometry and `pos`. -/
theorem State.FrameInv.congr {s t : State} (h : s.FrameInv) (hb : t.status.busy = s.status.busy)
    (ha : t.status.alpha = s.status.alpha) (hw : t.wLat = s.wLat) (hh : t.hLat = s.hLat) (hp : t.pos = s.pos) : t.FrameInv := by
  obtain ⟨h1, h2, h3, h4, h5, h6⟩ := h
  constructor <;> rw [hb] <;> simp only [ha, hw, hh, hp] <;> assumption

/-- With no conversion running, all there is to say is that `pos` rests at the origin. -/
theorem frameInv_of_not_busy {t : State} (hb : t.status.busy = false) (hp : t.pos = ⟨0, 0⟩) : t.FrameInv := by
  constructor <;> simp [hb, hp]

/-- `NEXT` from a pixel that is not the last stays in the frame and is one further in raster order (R115). -/
theorem nextPos_spec {w h : Dim} {p : Pos} (hr : p.row.toNat < h.toNat) (hc : p.col.toNat < w.toNat)
    (hl : ¬(p.row.toNat + 1 = h.toNat ∧ p.col.toNat + 1 = w.toNat)) :
    (nextPos w.toNat p).row.toNat < h.toNat ∧ (nextPos w.toNat p).col.toNat < w.toNat ∧
      (nextPos w.toNat p).row.toNat * w.toNat + (nextPos w.toNat p).col.toNat = p.row.toNat * w.toNat + p.col.toNat + 1 := by
  have hw := w.isLt
  have hh := h.isLt
  unfold nextPos
  split_ifs with hlt
  · have hcol : (p.col + 1).toNat = p.col.toNat + 1 :=
      BitVec.toNat_add_of_lt (show p.col.toNat + 1 < 2 ^ 16 by omega)
    rw [hcol]
    exact ⟨hr, hlt, rfl⟩
  · have hend : p.col.toNat + 1 = w.toNat := by omega
    have hrow : (p.row + 1).toNat = p.row.toNat + 1 :=
      BitVec.toNat_add_of_lt (show p.row.toNat + 1 < 2 ^ 16 by omega)
    have hlast : p.row.toNat + 1 ≠ h.toNat := fun e => hl ⟨e, hend⟩
    refine ⟨?_, ?_, ?_⟩
    · rw [hrow]; omega
    · exact Nat.lt_of_le_of_lt (Nat.zero_le _) hc
    · rw [hrow, Nat.add_mul, Nat.one_mul, Nat.add_assoc _ p.col.toNat, hend]; rfl

theorem posInFrame_iff {s : State} : posInFrame s = true ↔ s.pos.row.toNat < s.hLat.toNat ∧ s.pos.col.toNat < s.wLat.toNat := by
  simp [posInFrame]

theorem atLastPixel_iff {s : State} :
    atLastPixel s = true ↔ s.pos.row.toNat + 1 = s.hLat.toNat ∧ s.pos.col.toNat + 1 = s.wLat.toNat := by
  simp [atLastPixel]

theorem frameInv_pixelEffect {s : State} (h : s.FrameInv) (hb : s.status.busy = true) (hp : posInFrame s = true) :
    (pixelEffect s).FrameInv := by
  by_cases hl : atLastPixel s = true
  · exact frameInv_of_not_busy (by rw [pixelEffect_status, if_pos hl]) (by rw [pixelEffect_pos, if_pos hl])
  · have hst : (pixelEffect s).status = s.status := by rw [pixelEffect_status, if_neg hl]
    obtain ⟨hr, hc⟩ := posInFrame_iff.1 hp
    obtain ⟨hr', hc', -⟩ := nextPos_spec hr hc (fun e => hl (atLastPixel_iff.2 e))
    constructor <;> rw [hst] <;> simp only [pixelEffect_wLat, pixelEffect_hLat, pixelEffect_pos, if_neg hl]
    · exact h.width_ok
    · exact h.height_ok
    · exact h.input_fits
    · exact h.output_fits
    · exact fun _ => ⟨hr', hc'⟩
    · exact fun hf => by rw [hb] at hf; cases hf

theorem frameInv_acceptConv {a : Bool} {s : State} (h : CanConvert a s) : (acceptConv a s).FrameInv where
  width_ok _ := ⟨h.width_pos, h.width_even⟩
  height_ok _ := ⟨h.height_pos, h.height_even⟩
  input_fits _ := by
    rw [acceptConv_wLat, acceptConv_hLat, fsize_eq h.width_even h.height_even]
    exact h.input_fits
  output_fits _ := h.output_fits
  pos_in _ := ⟨h.height_pos, h.width_pos⟩
  pos_rest hb := by simp at hb

theorem StepEffect.frameInv {s t : State} (h : StepEffect s t) (hs : s.FrameInv) : t.FrameInv := by
  cases h with
  | idle | quiet | ibufWrite => exact hs.congr rfl rfl rfl rfl rfl
  | pixel _ hb hp => exact frameInv_pixelEffect (hs.congr rfl rfl rfl rfl rfl) hb hp
  | reset => exact frameInv_of_not_busy rfl rfl
  | regWrite => exact hs.congr (by simp) (by simp) (by simp) (by simp) (by simp)
  | fault w c => exact frameInv_of_not_busy (by simp) (by simp)
  | accept a _ hc => exact frameInv_acceptConv (canConvert_taken_iff.2 hc)
  | srst => exact frameInv_of_not_busy (by simp) (by simp)

/-! ## The buffers -/

theorem obufHas_iff {k : Nat} : obufHas k = true ↔ k < Config.obufBytes := decide_eq_true_iff

/-- A pixel step's store keeps the canonical form of `OBUF` and writes only bytes that exist (R61). -/
theorem obuf_storeAtPos {s : State} (hs : storeInRange s = true) (hw : Memory.wf s.obuf = true)
    (hi : Memory.within Config.obufBytes s.obuf = true) :
    Memory.wf (storeAtPos s).obuf = true ∧ Memory.within Config.obufBytes (storeAtPos s).obuf = true := by
  have hlt := obufHas_iff.1 hs
  refine ⟨Memory.wf_write _ _ hw, Memory.within_write _ _ ?_ hi⟩
  rw [pixelBytes_length]
  omega

theorem StepEffect.bufferInv {s t : State} (h : StepEffect s t) (hf : s.FrameInv) (hs : s.BufferInv) : t.BufferInv := by
  obtain ⟨hiw, how, hii, hoi⟩ := hs
  by_cases hr : s.resetNext = true
  · rw [h.eq_hardReset hr]
    exact ⟨rfl, rfl, rfl, rfl⟩
  rw [Bool.not_eq_true] at hr
  have hi : Memory.wf t.ibuf = true ∧ Memory.within Config.ibufBytes t.ibuf = true := by
    rcases h.ibuf_cases hr with e | ⟨off, b, -, ho, e⟩ <;> rw [e]
    · exact ⟨hiw, hii⟩
    · exact ⟨Memory.wf_set off b hiw, Memory.within_set b ho hii⟩
  have ho : Memory.wf t.obuf = true ∧ Memory.within Config.obufBytes t.obuf = true := by
    rcases h.obuf_cases hr with e | ⟨-, -, hst, e⟩ | ⟨-, e⟩ <;> rw [e]
    · exact ⟨how, hoi⟩
    · exact obuf_storeAtPos hst how hoi
    · exact ⟨wf_abortFrame how, within_abortFrame hoi hf.output_fits⟩
  exact ⟨hi.1, ho.1, hi.2, ho.2⟩

/-! ## The obligations -/

/-- Settles O30: each of the three invariants is kept; that of the buffers needs that the latched frame fits. -/
theorem stepKeepsInvariants : Obligations.StepKeepsInvariants := by
  intro s t hs h
  have he := stepEffect_of_step h
  exact ⟨he.statusInv hs.status, he.frameInv hs.frame, he.bufferInv hs.frame hs.buffers⟩

/-- Settles O29, by the kinds of step. -/
theorem stepKeepsFrameInvariants : Obligations.StepKeepsFrameInvariants :=
  fun _ _ hs h => (stepEffect_of_step h).frameInv hs

/-- Settles O28, by the kinds of step; the reserved bits read 0 in every state. -/
theorem stepKeepsStatusInvariants : Obligations.StepKeepsStatusInvariants := fun _ t hs h =>
  ⟨(stepEffect_of_step h).statusInv hs, statusWord_bit3 t.status, Nat.div_eq_of_lt (statusWord_lt t.status)⟩

/-- Settles O27: after reset no conversion runs, no cause is set and nothing is listed. -/
theorem resetMeetsInvariants : Obligations.ResetMeetsInvariants where
  status := statusInv_of_zero rfl
  frame := frameInv_of_not_busy rfl rfl
  buffers := ⟨rfl, rfl, rfl, rfl⟩

end Sys2Proof.Machine
end

section
/-! PROOFS. The rules of 10_state.md about one step: which bytes, latches and flags it can change, when a command runs, the interrupt output, and the
state after reset. -/

namespace Sys2Proof.Machine

/-! ## Bytes of the buffers -/

/-- Settles O33: of the steps that are no reset only a HOST write to `IBUF` changes it, and only at its offset. -/
theorem inputBufferChangesOnlyByHost : Obligations.InputBufferChangesOnlyByHost :=
  fun _ _ _ hw h hr hk => (stepEffect_of_step h).ibufByte_eq hr hw hk

/-- Settles O34: what changes `OBUF` is a pixel step or an abort, and both need BUSY. -/
theorem outputBufferStableWhenNotBusy : Obligations.OutputBufferStableWhenNotBusy := by
  intro s t k hb h hr
  have he := stepEffect_of_step h
  rcases he.obuf_cases hr with ho | ⟨hb', -⟩ | ⟨hb', -⟩
  · exact obufByte_congr ho (he.bufDraw_eq hr) k
  · rw [hb] at hb'; cases hb'
  · rw [hb] at hb'; cases hb'

/-- A pixel is in front of the frame's end in raster order. -/
theorem rasterIndex_lt {w h row col : Nat} (hr : row < h) (hc : col < w) : row * w + col < w * h := by
  have := Nat.mul_le_mul_right w hr
  rw [Nat.succ_mul, Nat.mul_comm h w] at this
  omega

/-- A pixel of the frame ends at or below `OSIZE` (R61). -/
theorem poff_add_bpp_le_osize {w h row col : Nat} (a : Bool) (hr : row < h) (hc : col < w) :
    poff w row col a + bpp a ≤ osize w h a := by
  have := Nat.mul_le_mul_right (bpp a) (rasterIndex_lt hr hc)
  rwa [Nat.succ_mul] at this

/-- A pixel step writes only its pixel's place. -/
theorem obufByte_storeAtPos_of_osize_le {s : State} {k : Nat} (hw : Memory.wf s.obuf = true) (hp : posInFrame s = true)
    (hk : osize s.wLat.toNat s.hLat.toNat s.status.alpha ≤ k) : obufByte (storeAtPos s) k = obufByte s k := by
  obtain ⟨hr, hc⟩ := posInFrame_iff.1 hp
  have := poff_add_bpp_le_osize s.status.alpha hr hc
  rw [storeAtPos, obufByte_pstore _ _ _ _ hw, if_neg (by omega)]

/-- Settles O35: a pixel step stores inside the frame, an abort draws the frame's bytes only. -/
theorem outputBufferTailIsUntouched : Obligations.OutputBufferTailIsUntouched := by
  intro s t k hs h hr hk
  have he := stepEffect_of_step h
  have hd := he.bufDraw_eq hr
  have hw := hs.buffers.obuf_wf
  rcases he.obuf_cases hr with ho | ⟨-, hp, -, ho⟩ | ⟨-, ho⟩
  · exact obufByte_congr ho hd k
  · calc obufByte t k = obufByte (storeAtPos s) k := obufByte_congr ho hd k
      _ = obufByte s k := obufByte_storeAtPos_of_osize_le hw hp hk
  · calc obufByte t k = obufByte (abortFrame s) k := obufByte_congr ho (by rw [hd, abortFrame_bufDraw]) k
      _ = obufByte s k := obufByte_abortFrame k hw (.inr hk)

/-! ## The running conversion and the flags -/

/-- A pixel step keeps the format. -/
theorem pixelEffect_alpha (s : State) : (pixelEffect s).status.alpha = s.status.alpha := by
  rw [pixelEffect_status]
  split_ifs <;> rfl

/-- Settles O36: only an acceptance and the two resets change the latches, and none of them leads from BUSY to BUSY. -/
theorem runningConversionKeepsGeometry : Obligations.RunningConversionKeepsGeometry := by
  intro s t hb h ht
  cases stepEffect_of_step h with
  | idle | quiet | ibufWrite => exact ⟨rfl, rfl, rfl⟩
  | pixel => exact ⟨pixelEffect_wLat _, pixelEffect_hLat _, pixelEffect_alpha _⟩
  | regWrite => exact ⟨writeReg_wLat _ _ _, writeReg_hLat _ _ _, writeReg_alpha _ _ _⟩
  | accept a _ hc => rw [hc.not_busy] at hb; cases hb
  | reset => cases ht
  | fault w c => simp at ht
  | srst => simp at ht

/-- Settles O37: of the kinds of step only an acceptance leads to BUSY from a state that is not. -/
theorem busySetOnlyByAcceptance : Obligations.BusySetOnlyByAcceptance := by
  intro s t hb h ht
  have absurd_busy : ∀ {p : Prop}, s.status.busy = true → p := fun e => by rw [hb] at e; cases e
  cases stepEffect_of_step h with
  | accept a hh hc => exact ⟨a, by simp [State.issues, hh], hc⟩
  | idle | quiet | ibufWrite => exact absurd_busy ht
  | pixel _ hb' => exact absurd_busy hb'
  | regWrite => exact absurd_busy ((writeReg_busy (s.taken .none) _ _).symm.trans ht)
  | reset => cases ht
  | fault w c => simp at ht
  | srst => simp at ht

/-- Settles O38: of the kinds of step only a pixel step that finishes the frame sets DONE. -/
theorem doneSetOnlyByLastPixel : Obligations.DoneSetOnlyByLastPixel := by
  intro s t hd h ht
  have absurd_done : ∀ {p : Prop}, s.status.done = true → p := fun e => by rw [hd] at e; cases e
  cases stepEffect_of_step h with
  | pixel hn hb =>
    by_cases hl : atLastPixel (s.taken s.reply) = true
    · obtain ⟨hrow, hcol⟩ := atLastPixel_iff.1 hl
      exact ⟨hb, hrow, hcol, hn.head, by rw [pixelEffect_status, if_pos hl]⟩
    · rw [pixelEffect_status, if_neg hl] at ht
      exact absurd_done ht
  | idle | quiet | ibufWrite => exact absurd_done ht
  | regWrite => exact absurd_done (done_of_writeReg (s := s.taken .none) ht)
  | fault w c => rw [enterFault_status] at ht; exact absurd_done ht
  | reset => cases ht
  | accept => cases ht
  | srst => simp at ht

/-! ## The step that runs a command -/

/-- Settles O6: the write is defined, and its word decodes to the command. -/
theorem stepRunsDecodedCommand : Obligations.StepRunsDecodedCommand := by
  intro s w i rest hw hi
  calc step s = runTxn (.wr 32 0x00 w) { s with inbox := rest } := step_host hi
    _ = execCmd w { s with inbox := rest, reply := .none } := runTxn_defined _ rfl
    _ = exec i { s with inbox := rest, reply := .none } := by rw [execCmd, hw]

/-! ## The interrupt output -/

theorem statusWord_bit1 (st : Status) : (statusWord st).getLsbD 1 = st.done := by
  have := Bool.toNat_le st.busy
  rw [statusWord_getLsbD]
  cases st.done <;> simp <;> omega

theorem statusWord_bit2 (st : Status) : (statusWord st).getLsbD 2 = st.err := by
  have := Bool.toNat_le st.busy
  have := Bool.toNat_le st.done
  rw [statusWord_getLsbD]
  cases st.err <;> simp <;> omega

/-- Bits 1 and 2 of `IRQ_EN` are the enables, every other bit is hardwired 0 (R34). -/
theorem irqEnWord_getLsbD (q : IrqEn) (i : Nat) :
    (irqEnWord q).getLsbD i = (decide (i = 1) && q.doneIe || decide (i = 2) && q.errIe) := by
  obtain ⟨d, e⟩ := q
  match i with
  | 0 | 1 | 2 => cases d <;> cases e <;> rfl
  | n + 3 =>
    have hlt : (irqEnWord ⟨d, e⟩).toNat < 2 ^ 3 := by cases d <;> cases e <;> decide
    rw [BitVec.getLsbD, Nat.testBit_lt_two_pow (hlt.trans_le (Nat.pow_le_pow_right (by decide) (by omega)))]
    simp

/-- `STATUS` and `IRQ_EN` meet in the two flags, at the same bit positions (R29, R34). -/
theorem statusWord_and_irqEnWord (st : Status) (q : IrqEn) :
    statusWord st &&& irqEnWord q = irqEnWord ⟨st.done && q.doneIe, st.err && q.errIe⟩ := by
  refine BitVec.eq_of_getLsbD_eq fun i _ => ?_
  rw [BitVec.getLsbD_and, irqEnWord_getLsbD, irqEnWord_getLsbD]
  match i with
  | 1 => rw [statusWord_bit1]; simp
  | 2 => rw [statusWord_bit2]; simp
  | 0 | n + 3 => simp

theorem irqEnWord_eq_zero_iff (q : IrqEn) : irqEnWord q = 0 ↔ (q.doneIe || q.errIe) = false := by
  obtain ⟨d, e⟩ := q
  cases d <;> cases e <;> decide

/-- Settles O24: the common bits of the two words are the enabled flags. -/
theorem interruptOutputFollowsState : Obligations.InterruptOutputFollowsState := by
  intro s
  refine ⟨rfl, ?_⟩
  simp only [statusWord_and_irqEnWord, ne_eq, irqEnWord_eq_zero_iff, Bool.not_eq_false, Bool.decide_eq_true]
  rfl

/-! ## Reset -/

/-- Settles O25: the fields of `State.reset`, and an idle ENGINE step. -/
theorem resetState : Obligations.ResetState :=
  ⟨by decide, rfl, rfl, rfl, by decide, rfl, rfl, rfl, rfl, rfl, fun _ => ⟨rfl, rfl⟩, rfl⟩

end Sys2Proof.Machine
end

section
/-! PROOFS. The ranges of the transform's working values (R24), and the CSC unit on bit containers against the exact integers (R163, R164). -/

namespace Sys2Proof.Machine

/-! ## Ranges -/

theorem biasY_range (y : Byte) : -16 ≤ biasY y ∧ biasY y ≤ 239 := by
  have := y.isLt
  unfold biasY yOff
  omega

theorem biasU_range (u : Byte) : -128 ≤ biasU u ∧ biasU u ≤ 127 := by
  have := u.isLt
  unfold biasU cOff
  omega

theorem biasV_range (v : Byte) : -128 ≤ biasV v ∧ biasV v ≤ 127 := biasU_range v

theorem macR_range (y v : Byte) :
    -56992 ≤ macR (biasY y) (biasV v) ∧ macR (biasY y) (biasV v) ≤ 123293 := by
  have := biasY_range y
  have := biasV_range v
  unfold macR kY kRV rnd
  omega

theorem macG_range (y u v : Byte) :
    -43756 ≤ macG (biasY y) (biasU u) (biasV v) ∧ macG (biasY y) (biasU u) (biasV v) ≤ 110774 := by
  have := biasY_range y
  have := biasU_range u
  have := biasV_range v
  unfold macG kY kGU kGV rnd
  omega

theorem macB_range (y u : Byte) :
    -70688 ≤ macB (biasY y) (biasU u) ∧ macB (biasY y) (biasU u) ≤ 136882 := by
  have := biasY_range y
  have := biasU_range u
  unfold macB kY kBU rnd
  omega

/-- The floor shift is monotone, so a range of sums gives a range of shifted values. -/
theorem shr8_mono {s t : Int} (h : s ≤ t) : shr8 s ≤ shr8 t := Int.ediv_le_ediv (by decide) h

/-- Settles O47: each sum is linear in its biased samples, each shifted value monotone in its sum. -/
theorem intermediateRanges : Obligations.IntermediateRanges := by
  intro y u v
  have hR := macR_range y v
  have hG := macG_range y u v
  have hB := macB_range y u
  exact ⟨biasY_range y, biasU_range u, biasV_range v, hR, hG, hB, ⟨shr8_mono hR.1, shr8_mono hR.2⟩,
    ⟨shr8_mono hG.1, shr8_mono hG.2⟩, shr8_mono hB.1, shr8_mono hB.2⟩

/-! ## Containers -/

/-- A bias removed in 9 bits does not wrap (R150 to R152). -/
theorem toInt_bias9 (x : Byte) (off : BitVec 9) (h : off.toNat ≤ 128) :
    (bias9 x off).toInt = (x.toNat : Int) - off.toNat := by
  have hx := x.isLt
  rw [bias9, BitVec.toInt_eq_toNat_cond, BitVec.toNat_sub, BitVec.toNat_setWidth]
  split <;> omega

/-- A container holds every value of its two's-complement range (R164). -/
theorem toInt_ofInt20 {n : Int} (h : -70688 ≤ n ∧ n ≤ 136882) : (BitVec.ofInt 20 n).toInt = n :=
  BitVec.toInt_ofInt_eq_self (by decide) (by omega) (by omega)

/-- The 20-bit sums are the exact sums, taken into the container at the end. -/
theorem accR_eq (c e : BitVec 9) : accR c e = BitVec.ofInt 20 (macR c.toInt e.toInt) := by
  simp only [macR, kY, kRV, rnd, BitVec.ofInt_add, BitVec.ofInt_mul]
  rfl

theorem accG_eq (c d e : BitVec 9) : accG c d e = BitVec.ofInt 20 (macG c.toInt d.toInt e.toInt) := by
  simp only [macG, kY, kGU, kGV, rnd, Int.sub_eq_add_neg, BitVec.ofInt_add, BitVec.ofInt_neg, BitVec.ofInt_mul]
  rw [accG, BitVec.sub_eq_add_neg, BitVec.sub_eq_add_neg]
  rfl

theorem accB_eq (c d : BitVec 9) : accB c d = BitVec.ofInt 20 (macB c.toInt d.toInt) := by
  simp only [macB, kY, kBU, rnd, BitVec.ofInt_add, BitVec.ofInt_mul]
  rfl

/-- Dropping the low 8 of 20 bits is the floor shift (R156). -/
theorem toInt_shr8Bits (s : BitVec 20) : (shr8Bits s).toInt = shr8 s.toInt := by
  have hs := s.isLt
  rw [shr8Bits, shr8, BitVec.toInt_eq_toNat_cond, BitVec.toInt_eq_toNat_cond, BitVec.extractLsb'_toNat,
    Nat.shiftRight_eq_div_pow]
  split <;> split <;> omega

/-- The clamp by bits is the clamp of the value (R157). -/
theorem clamp8Bits_eq (t : BitVec 12) : clamp8Bits t = clamp8 t.toInt := by
  have ht := t.isLt
  have hbit : t.getLsbD 11 = true ↔ 2048 ≤ t.toNat := by
    rw [BitVec.getLsbD, Nat.testBit_eq_decide_div_mod_eq, decide_eq_true_iff]
    omega
  have hhigh : t.extractLsb' 8 3 ≠ 0 ↔ t.toNat / 256 % 8 ≠ 0 := by
    rw [Ne, ← BitVec.toNat_inj, BitVec.extractLsb'_toNat, Nat.shiftRight_eq_div_pow]
    rfl
  rw [clamp8Bits, clamp8]
  by_cases hneg : 2048 ≤ t.toNat
  · rw [if_pos (hbit.2 hneg), if_pos (by rw [BitVec.toInt_eq_toNat_cond]; split <;> omega)]
  have hval : t.toInt = t.toNat := by rw [BitVec.toInt_eq_toNat_cond, if_pos (by omega)]
  rw [if_neg (hneg ∘ hbit.1), hval, if_neg (show ¬(t.toNat : Int) < 0 by omega)]
  by_cases hbig : 255 < t.toNat
  · rw [if_pos (hhigh.2 (by omega)), if_pos (show (t.toNat : Int) > 255 by omega)]
  · rw [if_neg (fun h => hhigh.1 h (by omega)), if_neg (show ¬(t.toNat : Int) > 255 by omega)]
    rfl

/-- Settles O54: by the ranges no container wraps, so each stage carries the exact value. -/
theorem bitContainersComputeTheTransform : Obligations.BitContainersComputeTheTransform := by
  intro y u v
  have hy : (bias9 y 16).toInt = biasY y := toInt_bias9 y 16 (by decide)
  have hu : (bias9 u 128).toInt = biasU u := toInt_bias9 u 128 (by decide)
  have hv : (bias9 v 128).toInt = biasV v := toInt_bias9 v 128 (by decide)
  have hR := macR_range y v
  have hG := macG_range y u v
  have hB := macB_range y u
  simp only [cscBits, csc, clamp8Bits_eq, toInt_shr8Bits, accR_eq, accG_eq, accB_eq, hy, hu, hv]
  rw [toInt_ofInt20 (by omega), toInt_ofInt20 (by omega), toInt_ofInt20 hB]

end Sys2Proof.Machine
end

section
/-! PROOFS. What a conversion leaves in `OBUF`, step by step from its acceptance under the moves R121 allows, and that it depends only on the geometry,
the format and the input frame (R41). -/

namespace Sys2Proof.Machine

/-! ## The frame as bytes -/

theorem bpp_pos (a : Bool) : 0 < bpp a := Nat.lt_of_lt_of_le (by decide) (Nat.le_add_right 3 _)

/-- The byte at `OBUF` offset `k` of the output frame that the latched geometry, the format and `IBUF` of `s` give: byte `k mod BPP` of pixel
`k div BPP` (R184). -/
def frameByte (s : State) (k : Nat) : Byte :=
  let p := k / bpp s.status.alpha
  (pixelBytes s.status.alpha (pixelAt s (p / s.wLat.toNat) (p % s.wLat.toNat))).getD (k % bpp s.status.alpha) 0

/-- The offsets of a pixel's three samples are below `FSIZE` (R61). -/
theorem sampleOffsets_lt_fsize {w h row col : Nat} (hw : w % 2 = 0) (hh : h % 2 = 0) (hr : row < h) (hc : col < w) :
    yOffset w row col < fsize w h ∧ uOffset w h (cidx row col).1 (cidx row col).2 < fsize w h ∧
      vOffset w h (cidx row col).1 (cidx row col).2 < fsize w h := by
  have hluma := rasterIndex_lt hr hc
  have hchroma : row / 2 * (w / 2) + col / 2 < w / 2 * (h / 2) := rasterIndex_lt (by omega) (by omega)
  simp only [yOffset, uOffset, vOffset, ubase, vbase, coff, cidx, fsize, ysize, csize, chromaW, chromaH]
  omega

/-- A pixel is a function of the latched geometry and the input frame. -/
theorem pixelAt_congr {s u : State} {row col : Nat} (hw : u.wLat = s.wLat) (hh : u.hLat = s.hLat)
    (hw2 : s.wLat.toNat % 2 = 0) (hh2 : s.hLat.toNat % 2 = 0) (hr : row < s.hLat.toNat) (hc : col < s.wLat.toNat)
    (hi : ∀ k, k < fsize s.wLat.toNat s.hLat.toNat → ibufByte u k = ibufByte s k) : pixelAt u row col = pixelAt s row col := by
  obtain ⟨hy, hu, hv⟩ := sampleOffsets_lt_fsize hw2 hh2 hr hc
  simp only [pixelAt, yfetch, ufetch, vfetch, hw, hh, hi _ hy, hi _ hu, hi _ hv]

/-- The output frame is a function of the latched geometry, the format and the input frame (R41). -/
theorem frameByte_congr {s u : State} {k : Nat} (hw : u.wLat = s.wLat) (hh : u.hLat = s.hLat)
    (ha : u.status.alpha = s.status.alpha) (hw2 : s.wLat.toNat % 2 = 0) (hh2 : s.hLat.toNat % 2 = 0)
    (hi : ∀ k, k < fsize s.wLat.toNat s.hLat.toNat → ibufByte u k = ibufByte s k)
    (hk : k < osize s.wLat.toNat s.hLat.toNat s.status.alpha) : frameByte u k = frameByte s k := by
  have hp : k / bpp s.status.alpha < s.wLat.toNat * s.hLat.toNat := Nat.div_lt_of_lt_mul (by rwa [Nat.mul_comm])
  have hwpos : 0 < s.wLat.toNat := Nat.pos_of_mul_pos_right (Nat.zero_lt_of_lt hp)
  simp only [frameByte, ha, hw]
  rw [pixelAt_congr hw hh hw2 hh2 (Nat.div_lt_of_lt_mul hp) (Nat.mod_lt _ hwpos) hi]

/-- The bytes of a pixel stand in the frame at its place. -/
theorem frameByte_of_pixel {s : State} {row col k : Nat} (hc : col < s.wLat.toNat)
    (hlo : poff s.wLat.toNat row col s.status.alpha ≤ k)
    (hhi : k < poff s.wLat.toNat row col s.status.alpha + bpp s.status.alpha) :
    frameByte s k =
      (pixelBytes s.status.alpha (pixelAt s row col)).getD (k - poff s.wLat.toNat row col s.status.alpha) 0 := by
  have hwpos : 0 < s.wLat.toNat := Nat.zero_lt_of_lt hc
  obtain ⟨j, rfl⟩ := Nat.exists_eq_add_of_le hlo
  have hj : j < bpp s.status.alpha := by omega
  have hdiv : (poff s.wLat.toNat row col s.status.alpha + j) / bpp s.status.alpha = row * s.wLat.toNat + col := by
    rw [poff, Nat.mul_comm, Nat.mul_add_div (bpp_pos _), Nat.div_eq_of_lt hj, Nat.add_zero]
  have hmod : (poff s.wLat.toNat row col s.status.alpha + j) % bpp s.status.alpha = j := by
    rw [poff, Nat.mul_comm, Nat.mul_add_mod, Nat.mod_eq_of_lt hj]
  have hrow : (row * s.wLat.toNat + col) / s.wLat.toNat = row := by
    rw [Nat.mul_comm, Nat.mul_add_div hwpos, Nat.div_eq_of_lt hc, Nat.add_zero]
  have hcol : (row * s.wLat.toNat + col) % s.wLat.toNat = col := by
    rw [Nat.mul_comm, Nat.mul_add_mod, Nat.mod_eq_of_lt hc]
  simp only [frameByte, hdiv, hmod, hrow, hcol, Nat.add_sub_cancel_left]

/-! ## A conversion under way -/

/-- `u` is BUSY with the conversion accepted in `s`, after `n` pixel steps: geometry, format and input frame are those of `s`, the first `n` pixels stand
in `OBUF`, and every byte from there on is as it was in `s` (R119). -/
structure Converting (s : State) (n : Nat) (u : State) : Prop where
  busy : u.status.busy = true
  alpha : u.status.alpha = s.status.alpha
  wLat : u.wLat = s.wLat
  hLat : u.hLat = s.hLat
  frame : u.FrameInv
  buffers : u.BufferInv
  raster : u.pos.row.toNat * s.wLat.toNat + u.pos.col.toNat = n
  input : ∀ k, k < fsize s.wLat.toNat s.hLat.toNat → ibufByte u k = ibufByte s k
  output : ∀ k, obufByte u k = if k < n * bpp s.status.alpha then frameByte s k else obufByte s k

/-- The latched geometry of a conversion under way is even. -/
theorem Converting.even {s u : State} {n : Nat} (h : Converting s n u) : s.wLat.toNat % 2 = 0 ∧ s.hLat.toNat % 2 = 0 := by
  rw [← h.wLat, ← h.hLat]
  exact ⟨(h.frame.width_ok h.busy).2, (h.frame.height_ok h.busy).2⟩

/-- `pos` of a conversion under way is a pixel of its frame. -/
theorem Converting.pos_in {s u : State} {n : Nat} (h : Converting s n u) :
    u.pos.row.toNat < s.hLat.toNat ∧ u.pos.col.toNat < s.wLat.toNat := by
  rw [← h.wLat, ← h.hLat]
  exact h.frame.pos_in h.busy

/-- The store of the next pixel leaves one pixel more in `OBUF`. -/
theorem Converting.obufByte_storeAtPos {s u : State} {n : Nat} (h : Converting s n u) (k : Nat) :
    obufByte (storeAtPos u) k = if k < (n + 1) * bpp s.status.alpha then frameByte s k else obufByte s k := by
  obtain ⟨hr, hc⟩ := h.pos_in
  obtain ⟨hw2, hh2⟩ := h.even
  have hpix := pixelAt_congr h.wLat h.hLat hw2 hh2 hr hc h.input
  have hplace : poff s.wLat.toNat u.pos.row.toNat u.pos.col.toNat s.status.alpha = n * bpp s.status.alpha := by
    rw [poff, h.raster]
  rw [storeAtPos, obufByte_pstore _ _ _ _ h.buffers.obuf_wf, h.wLat, h.alpha, hpix, h.output, Nat.succ_mul]
  by_cases hin : n * bpp s.status.alpha ≤ k ∧ k < n * bpp s.status.alpha + bpp s.status.alpha
  · rw [hplace, if_pos hin, if_pos hin.2, frameByte_of_pixel hc (by rw [hplace]; exact hin.1) (by rw [hplace]; exact hin.2),
      hplace]
  · rw [hplace, if_neg hin]
    by_cases hlt : k < n * bpp s.status.alpha
    · rw [if_pos hlt, if_pos (by omega)]
    · rw [if_neg hlt, if_neg (by omega)]

/-! ## One move of a conversion -/

/-- Every step takes the first move off the list. -/
theorem StepEffect.inbox_eq {u v : State} (h : StepEffect u v) : v.inbox = u.inbox.tail := by
  cases h <;> simp

theorem resetNext_eq_false_of_head {u : State} {m : Move} (hh : u.inbox.head? = some m) (hm : m ≠ .reset) :
    u.resetNext = false := by
  rw [← Bool.not_eq_true, resetNext_iff, hh]
  simpa using hm

/-- When ENGINE's move is next and a conversion runs, the step is a pixel step. -/
theorem StepEffect.eq_pixelEffect {u v : State} (h : StepEffect u v) (hh : u.inbox.head? = some .engine)
    (hb : u.status.busy = true) : v = pixelEffect (u.taken u.reply) := by
  cases h with
  | pixel => rfl
  | idle _ hb' => rw [hb] at hb'; cases hb'
  | _ => simp_all [issue]

/-- A HOST transaction R121 allows leaves the flags of the conversion, its latches, `pos` and `OBUF`. -/
theorem StepEffect.keeps_of_quiet {u v : State} {x : Txn} {n : Nat} (h : StepEffect u v)
    (hh : u.inbox.head? = some (.host x)) (hq : txnQuiet n x = true) :
    v.status.busy = u.status.busy ∧ v.status.alpha = u.status.alpha ∧ v.wLat = u.wLat ∧ v.hLat = u.hLat ∧
      v.pos = u.pos ∧ v.obuf = u.obuf := by
  have noCommand : ∀ {w : Word} {p : Prop}, u.inbox.head? = some (issue w) → w ≠ 0 → p := by
    intro w p hw hne
    obtain rfl : x = .wr 32 0x00 w := by simpa [hh, issue] using hw
    exact absurd (by simpa using (Bool.and_eq_true_iff.1 hq).2) hne
  cases h with
  | quiet | ibufWrite => exact ⟨rfl, rfl, rfl, rfl, rfl, rfl⟩
  | regWrite => simp
  | idle hn => exact absurd hn (not_engineNext hh (by simp))
  | pixel hn => exact absurd hn (not_engineNext hh (by simp))
  | reset hr => simp [hh] at hr
  | fault w c hw hne => exact noCommand hw hne
  | accept a hw => exact noCommand hw (by rw [encode_convCommand]; cases a <;> decide)
  | srst hw => exact noCommand hw (by decide)

/-- A HOST transaction R121 allows does not disturb a conversion. -/
theorem Converting.host {s u v : State} {n : Nat} {x : Txn} (h : Converting s n u) (he : StepEffect u v)
    (hh : u.inbox.head? = some (.host x)) (hq : txnQuiet (fsize s.wLat.toNat s.hLat.toNat) x = true) :
    Converting s n v := by
  have hr := resetNext_eq_false_of_head hh (by simp)
  obtain ⟨hb, ha, hw, hl, hp, ho⟩ := he.keeps_of_quiet hh hq
  refine ⟨hb.trans h.busy, ha.trans h.alpha, hw.trans h.wLat, hl.trans h.hLat, he.frameInv h.frame,
    he.bufferInv h.frame h.buffers, by rw [hp, h.raster], fun k hk => ?_, fun k => ?_⟩
  · have notHere : ∀ b, u.inbox.head? ≠ some (.host (.stbIbuf k b)) := by
      intro b e
      obtain rfl : x = .stbIbuf k b := by simpa [hh] using e
      simp [txnQuiet] at hq
      omega
    rw [he.ibufByte_eq hr h.buffers.ibuf_wf notHere, h.input k hk]
  · rw [obufByte_congr ho (he.bufDraw_eq hr), h.output k]

/-- A pixel step leaves one pixel more in `OBUF`, the last one included. -/
theorem Converting.obufByte_engine {s u v : State} {n : Nat} (h : Converting s n u) (he : StepEffect u v)
    (hh : u.inbox.head? = some .engine) (k : Nat) :
    obufByte v k = if k < (n + 1) * bpp s.status.alpha then frameByte s k else obufByte s k := by
  rw [← h.obufByte_storeAtPos, he.eq_pixelEffect hh h.busy, obufByte_pixelEffect]
  rfl

/-- A pixel step that is not the last goes on with the conversion. -/
theorem Converting.engine {s u v : State} {n : Nat} (h : Converting s n u) (he : StepEffect u v)
    (hh : u.inbox.head? = some .engine) (hn : n + 1 < s.wLat.toNat * s.hLat.toNat) : Converting s (n + 1) v := by
  have hr := resetNext_eq_false_of_head hh (by simp)
  obtain ⟨hrow, hcol⟩ := h.pos_in
  have hv := he.eq_pixelEffect hh h.busy
  have hlast : ¬(u.pos.row.toNat + 1 = s.hLat.toNat ∧ u.pos.col.toNat + 1 = s.wLat.toNat) := by
    rintro ⟨e1, e2⟩
    have hraster := h.raster
    rw [← e1, Nat.mul_succ, Nat.mul_comm] at hn
    omega
  have hnotLast : ¬atLastPixel (u.taken u.reply) = true := by
    rw [atLastPixel_iff, taken_pos, taken_hLat, taken_wLat, h.wLat, h.hLat]
    exact hlast
  have hst : v.status = u.status := by rw [hv, pixelEffect_status, if_neg hnotLast, taken_status]
  have hpos : v.pos = nextPos s.wLat.toNat u.pos := by
    rw [hv, pixelEffect_pos, if_neg hnotLast, taken_pos, taken_wLat, h.wLat]
  have hib : v.ibuf = u.ibuf := by rw [hv, pixelEffect_ibuf, taken_ibuf]
  refine ⟨by rw [hst, h.busy], by rw [hst, h.alpha], by rw [hv, pixelEffect_wLat, taken_wLat, h.wLat],
    by rw [hv, pixelEffect_hLat, taken_hLat, h.hLat], he.frameInv h.frame, he.bufferInv h.frame h.buffers, ?_, fun k hk => ?_,
    h.obufByte_engine he hh⟩
  · rw [hpos, (nextPos_spec hrow hcol hlast).2.2, h.raster]
  · rw [ibufByte_congr hib (he.bufDraw_eq hr), h.input k hk]

/-! ## The run of a conversion -/

/-- A run of one step more that answers a next state is a step, then the rest. -/
theorem exists_step_of_run {k : Nat} {s t : State} (h : Host.Core.run core (k + 1) s = .next t) :
    ∃ u, step s = .next u ∧ Host.Core.run core k u = .next t := by
  cases hs : step s with
  | next u => exact ⟨u, rfl, (run_step hs rfl).symm.trans h⟩
  | fault r =>
    have h' : core.step s = .fault r := hs
    simp [Host.Core.run, h'] at h
  | refused r =>
    have h' : core.step s = .refused r := hs
    simp [Host.Core.run, h'] at h

/-- The moves R121 allows and the last pixel step, taken from a conversion under way, leave the whole frame in `OBUF`. -/
theorem Converting.obufByte_of_run {s t : State} (ms : List Move) :
    ∀ {n : Nat} {u : State}, Converting s n u → u.inbox = ms ++ [.engine] →
      (∀ m ∈ ms, moveQuiet (fsize s.wLat.toNat s.hLat.toNat) m = true) →
      n + engineMoves ms + 1 = s.wLat.toNat * s.hLat.toNat → Host.Core.run core (ms.length + 1) u = .next t →
      ∀ k, obufByte t k = if k < osize s.wLat.toNat s.hLat.toNat s.status.alpha then frameByte s k else obufByte s k := by
  induction ms with
  | nil =>
    intro n u h hi _ hn hrun k
    obtain ⟨v, hstep, hv⟩ := exists_step_of_run hrun
    cases hv
    have hn' : n + 1 = s.wLat.toNat * s.hLat.toNat := hn
    rw [h.obufByte_engine (stepEffect_of_step hstep) (by rw [hi]; rfl), hn']
    rfl
  | cons m ms ih =>
    intro n u h hi hq hn hrun
    obtain ⟨hqm, hqms⟩ := List.forall_mem_cons.1 hq
    obtain ⟨v, hstep, hv⟩ := exists_step_of_run hrun
    have he := stepEffect_of_step hstep
    have hh : u.inbox.head? = some m := by rw [hi]; rfl
    have hvi : v.inbox = ms ++ [.engine] := by rw [he.inbox_eq, hi]; rfl
    cases m with
    | host x =>
      have hcount : engineMoves (.host x :: ms) = engineMoves ms := List.count_cons_of_ne (by simp)
      exact ih (h.host he hh hqm) hvi hqms (by rw [← hn, hcount]) hv
    | engine =>
      have hcount : engineMoves (.engine :: ms) = engineMoves ms + 1 := List.count_cons_self
      exact ih (h.engine he hh (by omega)) hvi hqms (by omega) hv
    | reset => cases hqm

/-- An accepted conversion command starts the conversion (R109). -/
theorem exec_convCommand {a : Bool} {s : State} (h : CanConvert a s) :
    exec (convCommand a) s = .next (acceptConv a s) := by
  obtain ⟨he, hc⟩ := (canConvert_iff a s).1 h
  cases a <;> simp [convCommand, exec, execConvRgb, execConvRgba, unlessError, conv, he, hc]

/-- Right after its acceptance a conversion is under way with no pixel done, whatever the moves to come. -/
theorem converting_of_canConvert {a : Bool} {s : State} (hs : s.BufferInv) (h : CanConvert a s) (ms : List Move) :
    Converting (acceptConv a s) 0 { acceptConv a s with inbox := ms } where
  busy := rfl
  alpha := rfl
  wLat := rfl
  hLat := rfl
  frame := (frameInv_acceptConv h).congr rfl rfl rfl rfl rfl
  buffers := ⟨hs.ibuf_wf, hs.obuf_wf, hs.ibuf_within, hs.obuf_within⟩
  raster := by simp
  input _ _ := rfl
  output k := by rw [Nat.zero_mul, if_neg (Nat.not_lt_zero k)]; rfl

/-- The frame a conversion leaves, as a function of the state that accepted it. -/
theorem readObuf_of_conversion {a : Bool} {s s1 t : State} {ms : List Move} (hs : s.BufferInv) (hc : CanConvert a s)
    (hx : exec (convCommand a) s = .next s1)
    (hq : ∀ m ∈ ms, moveQuiet (fsize s.width.toNat s.height.toNat) m = true)
    (hn : engineMoves ms + 1 = s.width.toNat * s.height.toNat)
    (hrun : Host.Core.run core (ms.length + 1) ({ s1 with inbox := ms ++ [.engine] } : State) = .next t) :
    readObuf t 0 (osize s.width.toNat s.height.toNat a) =
      (List.range (osize s.width.toNat s.height.toNat a)).map (frameByte (acceptConv a s)) := by
  rw [exec_convCommand hc] at hx
  cases hx
  have hbytes := (converting_of_canConvert hs hc _).obufByte_of_run ms rfl hq (by rw [Nat.zero_add]; exact hn) hrun
  refine List.map_congr_left fun k hk => ?_
  rw [Nat.zero_add, hbytes]
  exact if_pos (List.mem_range.1 hk)

/-- Settles O57: each run leaves the frame of its accepting state, and the two frames are made of the same geometry, format and samples. -/
theorem framesAreIndependent : Obligations.FramesAreIndependent := by
  intro a s s' s1 s1' t t' ms ms' hs hs' hc hc' hw hh hx hx' w h hi hq hq' hn hn' hrun hrun'
  have hsame : ∀ k, k < osize w h a → frameByte (acceptConv a s') k = frameByte (acceptConv a s) k := fun k hk =>
    frameByte_congr (s := acceptConv a s) (u := acceptConv a s') hw hh rfl hc.width_even hc.height_even hi hk
  have hleft := readObuf_of_conversion hs hc hx hq hn hrun
  have hright := readObuf_of_conversion (ms := ms') hs' hc' hx' (by rw [hw, hh]; exact hq') (by rw [hw, hh]; exact hn') hrun'
  rw [hw, hh] at hright
  rw [hleft, hright]
  exact List.map_congr_left fun k hk => hsame k (List.mem_range.1 hk)

end Sys2Proof.Machine
end

section
/-! PROOFS. The rules of 20_memory.md: words as bytes, which HOST accesses are defined and what each buffer access does, the bounds of ENGINE's addresses, and
wide accesses as their single bytes. -/

namespace Sys2Proof.Machine

/-! ## Numbers as bytes -/

/-- Byte `k` of a number, the least significant one first. -/
def numByte (v k : Nat) : Byte := BitVec.ofNat 8 (v / 256 ^ k)

/-- The first `n` bytes of a number, in ascending offset (R54, R55). -/
def numBytes (n v : Nat) : List Byte := (List.range n).map (numByte v)

@[simp] theorem length_numBytes (n v : Nat) : (numBytes n v).length = n := by simp [numBytes]

/-- The least significant byte comes first, then the bytes of what is left of the number. -/
theorem numBytes_succ (n v : Nat) : numBytes (n + 1) v = numByte v 0 :: numBytes n (v / 256) := by
  have shift : numByte v ∘ Nat.succ = numByte (v / 256) := by
    funext k
    simp only [Function.comp, numByte, Nat.pow_succ', Nat.div_div_eq_div_mul, Nat.succ_eq_add_one]
  rw [numBytes, List.range_succ_eq_map, List.map_cons, List.map_map, shift, numBytes]

/-- The first `n` bytes of a number give it back modulo `256 ^ n`. -/
theorem littleEndian_numBytes (n v : Nat) : littleEndian (numBytes n v) = v % 256 ^ n := by
  induction n generalizing v with
  | zero => exact (Nat.mod_one v).symm
  | succ n ih =>
    have low : (numByte v 0).toNat = v % 256 := by simp [numByte]
    rw [numBytes_succ, littleEndian, ih, low, Nat.pow_succ', Nat.mod_mul]

/-- Bits `8k+7:8k` of a word are byte `k` of its value. -/
theorem extractLsb'_eq_numByte (w : Word) (k : Nat) : w.extractLsb' (8 * k) 8 = numByte w.toNat k := by
  rw [BitVec.extractLsb', numByte, Nat.shiftRight_eq_div_pow, Nat.pow_mul]

theorem bytesOfWord_eq (w : Word) : bytesOfWord w = numBytes 4 w.toNat := by
  rw [numBytes, ← funext (extractLsb'_eq_numByte w)]
  rfl

/-- Appending puts the left part above the bits of the right one. -/
theorem toNat_append_byte {n : Nat} (x : BitVec n) (b : Byte) : (x ++ b).toNat = b.toNat + 256 * x.toNat := by
  rw [BitVec.toNat_append, ← Nat.shiftLeft_add_eq_or_of_lt b.isLt, Nat.shiftLeft_eq]
  omega

theorem toNat_wordOfBytes (b0 b1 b2 b3 : Byte) : (wordOfBytes b0 b1 b2 b3).toNat = littleEndian [b0, b1, b2, b3] := by
  simp only [wordOfBytes, toNat_append_byte, littleEndian]
  omega

theorem littleEndian_bytesOfWord (w : Word) : littleEndian (bytesOfWord w) = w.toNat := by
  rw [bytesOfWord_eq, littleEndian_numBytes, Nat.mod_eq_of_lt (show w.toNat < 256 ^ 4 from w.isLt)]

/-- Settles O5: the bytes are those of the word's value, and the word put together has the value of its bytes. -/
theorem wordBytesAreLittleEndian : Obligations.WordBytesAreLittleEndian := by
  refine fun w => ⟨bytesOfWord_eq w, fun b0 b1 b2 b3 hb => BitVec.eq_of_toNat_eq ?_, littleEndian_bytesOfWord w⟩
  rw [toNat_wordOfBytes, ← hb, littleEndian_bytesOfWord]

/-! ## Defined and refused transactions -/

/-- The step of a HOST transaction that is defined. -/
theorem step_host_defined {s : State} {x : Txn} {rest : List Move} (hi : s.inbox = .host x :: rest)
    (hd : txnDefined x = true) : step s = performTxn x { s with inbox := rest, reply := .none } := by
  rw [step_host hi, runTxn_defined _ hd]

/-- The step of a HOST transaction that is not defined. -/
theorem step_host_undefined {s : State} {x : Txn} {rest : List Move} (hi : s.inbox = .host x :: rest)
    (hd : txnDefined x = false) : step s = .refused (refusalOf x) := by
  rw [step_host hi, runTxn_undefined _ hd]

/-- A HOST read of `IBUF` (R102). -/
theorem step_ldbIbuf {s : State} {off : Nat} {rest : List Move} (hi : s.inbox = .host (.ldbIbuf off) :: rest)
    (ho : off < Config.ibufBytes) : step s = .next { s with inbox := rest, reply := .byte (ibufByte s off) } :=
  step_host_defined hi (decide_eq_true ho)

/-- A HOST write to `IBUF` (R103). -/
theorem step_stbIbuf {s : State} {off : Nat} {b : Byte} {rest : List Move}
    (hi : s.inbox = .host (.stbIbuf off b) :: rest) (ho : off < Config.ibufBytes) :
    step s = .next { s with ibuf := Memory.set s.ibuf off b, inbox := rest, reply := .none } :=
  step_host_defined hi (decide_eq_true ho)

/-- A HOST read of `OBUF` (R104). -/
theorem step_ldbObuf {s : State} {off : Nat} {rest : List Move} (hi : s.inbox = .host (.ldbObuf off) :: rest)
    (ho : off < Config.obufBytes) : step s = .next { s with inbox := rest, reply := .byte (obufByte s off) } :=
  step_host_defined hi (decide_eq_true ho)

/-- A HOST write to `OBUF` (R105). -/
theorem step_stbObuf {s : State} {off : Nat} {b : Byte} {rest : List Move}
    (hi : s.inbox = .host (.stbObuf off b) :: rest) (ho : off < Config.obufBytes) :
    step s = .next { s with inbox := rest, reply := .none } :=
  step_host_defined hi (decide_eq_true ho)

theorem regAccessDefined_eq_false {bits off : Nat} (h : bits ≠ 32 ∨ off % 4 ≠ 0 ∨ 256 ≤ off) :
    regAccessDefined bits off = false := by
  rw [← Bool.not_eq_true]
  simp only [regAccessDefined, Bool.and_eq_true, beq_iff_eq, decide_eq_true_eq]
  omega

theorem ibufHas_eq_false {off : Nat} (h : Config.ibufBytes ≤ off) : ibufHas off = false := decide_eq_false (Nat.not_lt.2 h)

theorem obufHas_eq_false {off : Nat} (h : Config.obufBytes ≤ off) : obufHas off = false := decide_eq_false (Nat.not_lt.2 h)

/-- A command answers a next state, in every state (R107). -/
theorem exec_next (i : Instr) (s : State) : ∃ u, exec i s = .next u := by
  cases i <;> exact ⟨_, rfl⟩

/-- So does every word written to `CMD`. -/
theorem execCmd_next (w : Word) (s : State) : ∃ u, execCmd w s = .next u := by
  unfold execCmd
  split
  · exact exec_next _ s
  · exact ⟨_, rfl⟩

/-- A transaction R100 to R105 define answers a next state, in every state (R106). -/
theorem performTxn_next (x : Txn) (s : State) : ∃ u, performTxn x s = .next u := by
  cases x with
  | wr bits off v =>
    simp only [performTxn]
    split_ifs
    · exact execCmd_next v s
    · exact ⟨_, rfl⟩
  | _ => exact ⟨_, rfl⟩

/-- Settles O21: each access the block does not define is not `txnDefined`, and a defined one is performed. -/
theorem undefinedAccessesAreRefused : Obligations.UndefinedAccessesAreRefused := by
  refine fun s rest => ⟨?_, ?_, ?_, ?_, ?_, ?_, ?_⟩
  · exact fun bits off hi h => step_host_undefined hi (regAccessDefined_eq_false h)
  · exact fun bits off v hi h => step_host_undefined hi (regAccessDefined_eq_false h)
  · exact fun off hi h => step_host_undefined hi (ibufHas_eq_false h)
  · exact fun off b hi h => step_host_undefined hi (ibufHas_eq_false h)
  · exact fun off hi h => step_host_undefined hi (obufHas_eq_false h)
  · exact fun off b hi h => step_host_undefined hi (obufHas_eq_false h)
  · intro x hi hd
    rw [step_host_defined hi hd]
    exact performTxn_next x _

/-! ## ENGINE's addresses -/

/-- The chroma element of a pixel lies in its plane. -/
theorem coff_lt_csize {w h row col : Nat} (hw : w % 2 = 0) (hh : h % 2 = 0) (hr : row < h) (hc : col < w) :
    coff w (row / 2) (col / 2) < csize w h :=
  rasterIndex_lt (h := h / 2) (w := w / 2) (by omega) (by omega)

/-- Settles O42: a pixel's index in raster order bounds the luma and output offsets, its chroma element's the others. -/
theorem engineAddressesAreInRange : Obligations.EngineAddressesAreInRange := by
  intro w h row col a hw hh hr hc
  have hchroma := coff_lt_csize hw hh hr hc
  have hout := poff_add_bpp_le_osize a hr hc
  refine ⟨rasterIndex_lt hr hc, ⟨Nat.le_add_right _ _, ?_⟩, ⟨Nat.le_add_right _ _, ?_⟩, ?_, fsize_eq hw hh⟩
  · exact Nat.add_lt_add_left hchroma _
  · show ysize w h + csize w h + coff w (row / 2) (col / 2) < ysize w h + 2 * csize w h
    omega
  · intro k hk
    omega

/-! ## Wide accesses -/

/-- The single-byte writes of `bs` to `IBUF`, from `a` on, in ascending offset. -/
def ibufWrites (a : Nat) (bs : List Byte) : List Txn := (bs.zipIdx a).map fun p => .stbIbuf p.2 p.1

theorem wideStoreIbuf_eq (a n v : Nat) : wideStoreIbuf a n v = ibufWrites a (numBytes n v) := by
  refine List.ext_getElem (by simp [wideStoreIbuf, ibufWrites]) fun k _ _ => ?_
  simp [wideStoreIbuf, ibufWrites, numBytes, numByte]

/-- Single-byte writes to offsets that exist complete and are `MemWrite` of the bytes (R103). -/
theorem run_ibufWrites {bs : List Byte} {a : Nat} {s : State} {rest : List Move} (ha : a + bs.length ≤ Config.ibufBytes)
    (hi : s.inbox = (ibufWrites a bs).map .host ++ rest) :
    ∃ r, Host.Core.run core bs.length s =
      .next ({ s with ibuf := Memory.write s.ibuf a bs, inbox := rest, reply := r } : State) := by
  induction bs generalizing a s with
  | nil =>
    obtain rfl : s.inbox = rest := hi
    exact ⟨s.reply, rfl⟩
  | cons b bs ih =>
    rw [List.length_cons] at ha
    obtain ⟨r, hr⟩ := ih (a := a + 1)
      (s := { s with ibuf := Memory.set s.ibuf a b, inbox := (ibufWrites (a + 1) bs).map .host ++ rest, reply := .none })
      (by omega) rfl
    exact ⟨r, run_step (step_stbIbuf hi (by omega)) hr⟩

/-- Single-byte writes to offsets of `OBUF` that exist complete and are ignored (R105). -/
theorem run_obufWrites {ts : List Txn} {s : State} {rest : List Move}
    (h : ∀ x ∈ ts, ∃ off b, x = .stbObuf off b ∧ off < Config.obufBytes) (hi : s.inbox = ts.map .host ++ rest) :
    ∃ r, Host.Core.run core ts.length s = .next ({ s with inbox := rest, reply := r } : State) := by
  induction ts generalizing s with
  | nil =>
    obtain rfl : s.inbox = rest := hi
    exact ⟨s.reply, rfl⟩
  | cons x ts ih =>
    obtain ⟨⟨off, b, rfl, ho⟩, hts⟩ := List.forall_mem_cons.1 h
    obtain ⟨r, hr⟩ := ih (s := { s with inbox := ts.map .host ++ rest, reply := .none }) hts rfl
    exact ⟨r, run_step (step_stbObuf hi ho) hr⟩

/-- The bytes of `IBUF` after a `MemWrite`. -/
theorem ibufByte_of_write {s t : State} {a : Nat} {bs : List Byte} (hw : Memory.wf s.ibuf = true)
    (hi : t.ibuf = Memory.write s.ibuf a bs) (hd : t.bufDraw = s.bufDraw) (k : Nat) :
    ibufByte t k = if a ≤ k ∧ k < a + bs.length then bs.getD (k - a) 0 else ibufByte s k := by
  simp only [ibufByte, hi, hd, Memory.get?_write _ _ _ hw]
  by_cases hk : a ≤ k ∧ k < a + bs.length
  · have hlt : k - a < bs.length := by omega
    rw [if_pos hk, if_pos hk, List.getElem?_eq_getElem hlt, List.getD_eq_getElem _ _ hlt]
  · rw [if_neg hk, if_neg hk]

/-- What was written is read back. -/
theorem readIbuf_of_write {s t : State} {a : Nat} {bs : List Byte} (hw : Memory.wf s.ibuf = true)
    (hi : t.ibuf = Memory.write s.ibuf a bs) (hd : t.bufDraw = s.bufDraw) : readIbuf t a bs.length = bs := by
  refine List.ext_getElem (by simp [readIbuf]) fun k _ hk => ?_
  simp only [readIbuf, List.getElem_map, List.getElem_range]
  rw [ibufByte_of_write hw hi hd, if_pos (by omega), Nat.add_sub_cancel_left, List.getD_eq_getElem _ _ hk]

/-- In a list made of the numbers below `n`, what is left from the `k`-th entry on begins with that of `k`. -/
theorem drop_map_range {n k : Nat} (f : Nat → Txn) (hk : k < n) :
    ((List.range n).map f).drop k = f k :: ((List.range n).map f).drop (k + 1) := by
  rw [List.drop_eq_getElem_cons (by simpa using hk), List.getElem_map, List.getElem_range]

/-- Each byte read of a wide read of `IBUF` completes and returns its byte (R102). -/
theorem step_wideLoadIbuf (s : State) {a n k : Nat} (ha : a + n ≤ Config.ibufBytes) (hk : k < n) :
    ∃ u : State, step { s with inbox := ((wideLoadIbuf a n).drop k).map Move.host } = .next u ∧
      u.reply = .byte (ibufByte s (a + k)) ∧ u.inbox = ((wideLoadIbuf a n).drop (k + 1)).map Move.host := by
  rw [wideLoadIbuf, drop_map_range _ hk]
  exact ⟨_, step_ldbIbuf rfl (by omega), rfl, rfl⟩

/-- Each byte read of a wide read of `OBUF` completes and returns its byte (R104). -/
theorem step_wideLoadObuf (s : State) {a n k : Nat} (ha : a + n ≤ Config.obufBytes) (hk : k < n) :
    ∃ u : State, step { s with inbox := ((wideLoadObuf a n).drop k).map Move.host } = .next u ∧
      u.reply = .byte (obufByte s (a + k)) ∧ u.inbox = ((wideLoadObuf a n).drop (k + 1)).map Move.host := by
  rw [wideLoadObuf, drop_map_range _ hk]
  exact ⟨_, step_ldbObuf rfl (by omega), rfl, rfl⟩

/-- A wide write to `IBUF` completes and is `MemWrite` of the number's bytes (R55). -/
theorem run_wideStoreIbuf (s : State) {a n : Nat} (v : Nat) (ha : a + n ≤ Config.ibufBytes) :
    ∃ t : State, Host.Core.run core n ({ s with inbox := (wideStoreIbuf a n v).map Move.host } : State) = .next t ∧
      t.ibuf = Memory.write s.ibuf a (numBytes n v) ∧ t.bufDraw = s.bufDraw := by
  obtain ⟨r, hr⟩ := run_ibufWrites (bs := numBytes n v) (a := a) (rest := [])
    (s := { s with inbox := (wideStoreIbuf a n v).map Move.host }) (by rwa [length_numBytes])
    (by rw [wideStoreIbuf_eq, List.append_nil])
  rw [length_numBytes] at hr
  exact ⟨_, hr, rfl, rfl⟩

/-- A wide write to `OBUF` completes and is ignored (R55, R105). -/
theorem run_wideStoreObuf (s : State) {a n : Nat} (v : Nat) (ha : a + n ≤ Config.obufBytes) :
    ∃ r, Host.Core.run core n ({ s with inbox := (wideStoreObuf a n v).map Move.host } : State) =
      .next ({ s with inbox := [], reply := r } : State) := by
  have hts : ∀ x ∈ wideStoreObuf a n v, ∃ off b, x = .stbObuf off b ∧ off < Config.obufBytes := by
    intro x hx
    obtain ⟨k, hk, rfl⟩ := List.mem_map.1 hx
    exact ⟨_, _, rfl, by have := List.mem_range.1 hk; omega⟩
  have h := run_obufWrites (rest := []) (s := { s with inbox := (wideStoreObuf a n v).map Move.host }) hts
    (List.append_nil _).symm
  rwa [wideStoreObuf, List.length_map, List.length_range] at h

/-- Settles O20: a wide write is `MemWrite` of the number's bytes to `IBUF` and nothing to `OBUF`; a wide read is its byte reads. -/
theorem wideAccessIsByteAccesses : Obligations.WideAccessIsByteAccesses := by
  refine ⟨fun s a n v hw ha => ?_, fun s a n v ha => ⟨?_, fun k hk => step_wideLoadObuf s ha hk⟩⟩
  · obtain ⟨t, hrun, hi, hd⟩ := run_wideStoreIbuf s v ha
    refine ⟨t, hrun, ?_, fun k hk => ?_, fun k hk => step_wideLoadIbuf t ha hk⟩
    · have hread := readIbuf_of_write hw hi hd
      rw [length_numBytes] at hread
      rw [hread, littleEndian_numBytes]
    · rw [ibufByte_of_write hw hi hd, length_numBytes, if_neg (by omega)]
  · obtain ⟨r, hr⟩ := run_wideStoreObuf s v ha
    exact ⟨_, hr, rfl⟩

end Sys2Proof.Machine
end

section
/-! PROOFS. The rules of 30_encoding.md: the fields of a word, the decoder against the encoder, which words are illegal and what writing one to `CMD` does,
the opcode map, and the values `STATUS` can be read as. -/

namespace Sys2Proof

/-! ## The fields of a word -/

@[simp] theorem FormatC.toNat_ofWord_op (w : Word) : (FormatC.ofWord w).op.toNat = w.toNat % 16 := by
  rw [FormatC.ofWord, BitVec.extractLsb'_toNat, Nat.shiftRight_zero]

@[simp] theorem FormatC.toNat_ofWord_a (w : Word) : (FormatC.ofWord w).a.toNat = w.toNat / 16 % 2 := by
  rw [FormatC.ofWord, BitVec.extractLsb'_toNat, Nat.shiftRight_eq_div_pow]

@[simp] theorem FormatC.toNat_ofWord_rsv (w : Word) : (FormatC.ofWord w).rsv.toNat = w.toNat / 32 := by
  rw [FormatC.ofWord, BitVec.extractLsb'_toNat, Nat.shiftRight_eq_div_pow]
  exact Nat.mod_eq_of_lt (by have := w.isLt; omega)

theorem FormatC.toNat_toWord (f : FormatC) : f.toWord.toNat = f.op.toNat + 16 * f.a.toNat + 32 * f.rsv.toNat := by
  rw [FormatC.toWord, BitVec.toNat_append, ← Nat.shiftLeft_add_eq_or_of_lt f.op.isLt, BitVec.toNat_append,
    ← Nat.shiftLeft_add_eq_or_of_lt f.a.isLt, Nat.shiftLeft_eq, Nat.shiftLeft_eq]
  omega

/-- Fields with the same values are the same fields. -/
theorem FormatC.eq_of_toNat_eq {f g : FormatC} (hop : f.op.toNat = g.op.toNat) (ha : f.a.toNat = g.a.toNat)
    (hrsv : f.rsv.toNat = g.rsv.toNat) : f = g := by
  rw [FormatC.mk.injEq]
  exact ⟨BitVec.eq_of_toNat_eq hop, BitVec.eq_of_toNat_eq ha, BitVec.eq_of_toNat_eq hrsv⟩

/-- No bit of a word is lost in its fields (R80). -/
theorem FormatC.toWord_ofWord (w : Word) : (FormatC.ofWord w).toWord = w := by
  apply BitVec.eq_of_toNat_eq
  rw [FormatC.toNat_toWord, toNat_ofWord_op, toNat_ofWord_a, toNat_ofWord_rsv]
  omega

/-- The fields of a word are read back from it (R80). -/
theorem FormatC.ofWord_toWord (f : FormatC) : FormatC.ofWord f.toWord = f := by
  have hop := f.op.isLt
  have ha := f.a.isLt
  apply FormatC.eq_of_toNat_eq
  · rw [toNat_ofWord_op, toNat_toWord]; omega
  · rw [toNat_ofWord_a, toNat_toWord]; omega
  · rw [toNat_ofWord_rsv, toNat_toWord]; omega

/-! ## Well-formed fields -/

theorem FormatC.wellFormed_iff (f : FormatC) :
    f.wellFormed = true ↔ f.rsv = 0 ∧ (f.op = 0x0 ∨ f.op = 0x1 ∨ f.op = 0xF) ∧ (f.a = 0 ∨ f.op = 0x1) := by
  simp [FormatC.wellFormed, FormatC.rsvZero, FormatC.opDefined, FormatC.formatBitAllowed, and_assoc, or_assoc]

/-- The same on the word's value, where R89 states it. -/
theorem FormatC.wellFormed_ofWord_iff (w : Word) : (FormatC.ofWord w).wellFormed = true ↔
    w.toNat / 32 = 0 ∧ (w.toNat % 16 = 0 ∨ w.toNat % 16 = 1 ∨ w.toNat % 16 = 15) ∧ (w.toNat / 16 % 2 = 0 ∨ w.toNat % 16 = 1) := by
  simp [FormatC.wellFormed_iff, BitVec.toNat_eq]

/-- The fields that meet format `C` are those of the opcode table's four rows (R81). -/
theorem FormatC.wellFormed_iff_exists (f : FormatC) : f.wellFormed = true ↔ ∃ i, f = fieldsOf i := by
  constructor
  · intro h
    obtain ⟨op, a, rsv⟩ := f
    obtain ⟨rfl, rfl | rfl | rfl, ha⟩ := (FormatC.wellFormed_iff _).1 h
    · obtain rfl : a = 0 := ha.resolve_right (by simp)
      exact ⟨.nop, rfl⟩
    · rcases BitVec.eq_zero_or_eq_one a with rfl | rfl
      · exact ⟨.convRgb, rfl⟩
      · exact ⟨.convRgba, rfl⟩
    · obtain rfl : a = 0 := ha.resolve_right (by simp)
      exact ⟨.srst, rfl⟩
  · rintro ⟨i, rfl⟩
    cases i <;> rfl

/-! ## The decoder and the encoder -/

theorem decode_encode (i : Instr) : decode (encode i) = .command i := by
  cases i <;> rfl

theorem eq_encode_of_decode {w : Word} {i : Instr} (h : decode w = .command i) : w = encode i := by
  unfold decode at h
  split_ifs at h with h0 h1 h11 hF
  · cases h; exact h0
  · cases h; exact h1
  · cases h; exact h11
  · cases h; exact hF

theorem decode_eq_command_iff (w : Word) (i : Instr) : decode w = .command i ↔ w = encode i :=
  ⟨eq_encode_of_decode, fun h => h ▸ decode_encode i⟩

/-- A word is a command's exactly when its fields are. -/
theorem eq_encode_iff (w : Word) (i : Instr) : w = encode i ↔ FormatC.ofWord w = fieldsOf i :=
  ⟨fun h => h ▸ FormatC.ofWord_toWord _, fun h => by rw [encode, ← h, FormatC.toWord_ofWord]⟩

theorem exists_command_iff (w : Word) : (∃ i, decode w = .command i) ↔ (FormatC.ofWord w).wellFormed = true := by
  simp only [decode_eq_command_iff, eq_encode_iff, FormatC.wellFormed_iff_exists]

theorem exists_illegal_iff (w : Word) : (∃ why, decode w = .illegal why) ↔ ¬∃ i, decode w = .command i := by
  cases decode w <;> simp

/-- R89's list of the illegal words. -/
theorem exists_illegal_iff_toNat (w : Word) : (∃ why, decode w = .illegal why) ↔
    w.toNat / 32 ≠ 0 ∨ (2 ≤ w.toNat % 16 ∧ w.toNat % 16 ≤ 14) ∨ (w.toNat / 16 % 2 = 1 ∧ w.toNat % 16 ≠ 1) := by
  rw [exists_illegal_iff, exists_command_iff, FormatC.wellFormed_ofWord_iff]
  omega

/-- Settles O1: a word that decodes to a command is that command's, and it is none of the four. -/
theorem exactlyFourWordsAreCommands : Obligations.ExactlyFourWordsAreCommands := by
  refine ⟨rfl, rfl, rfl, rfl, fun w h0 h1 h11 hF => (exists_illegal_iff w).2 ?_⟩
  rintro ⟨i, hi⟩
  have hw := eq_encode_of_decode hi
  cases i with
  | nop => exact h0 hw
  | convRgb => exact h1 hw
  | convRgba => exact h11 hw
  | srst => exact hF hw

/-! ## Words as bytes and as the opcode table's bits -/

/-- Bytes in the order of R54 decode as their word. -/
theorem decodeBytes_bytesOfWord (w : Word) : decodeBytes (bytesOfWord w) = decode w :=
  congrArg decode ((Machine.wordBytesAreLittleEndian w).2.1 _ _ _ _ rfl)

theorem tableWord_toNat (w : Word) : tableWord 32 w.toNat = w := by
  rw [tableWord, Nat.mod_eq_of_lt w.isLt, BitVec.ofNat_toNat, BitVec.setWidth_eq]

theorem decodeTableWord_toNat (w : Word) : decodeTableWord 32 w.toNat = (decode w).toOption := by
  rw [decodeTableWord, if_pos (Nat.mod_lt _ (by decide)), tableWord_toNat, decodeBytes_bytesOfWord]

/-- Settles O2: decoding inverts encoding, and words and fields determine each other. -/
theorem decodeOfWordIffEncoded : Obligations.DecodeOfWordIffEncoded :=
  ⟨decode_eq_command_iff, exists_command_iff, FormatC.toWord_ofWord, FormatC.ofWord_toWord,
    fun w i => by rw [decodeBytes_bytesOfWord, decode_eq_command_iff]⟩

/-! ## The opcode map -/

/-- Flipping bit `k` leaves every other bit. -/
theorem getLsbD_flip_of_ne (w : Word) {j k : Nat} (h : j ≠ k) : (w ^^^ (1#32 <<< k)).getLsbD j = w.getLsbD j := by
  have hj : (1#32 <<< k).getLsbD j = false := (BitVec.getLsbD_twoPow k j).trans (by simp [h.symm])
  rw [BitVec.getLsbD_xor, hj, Bool.xor_false]

/-- `SRST`'s word differs from every other command's in bits 1 and 2. -/
theorem getLsbD_encode_ne_srst {i : Instr} (h : i ≠ .srst) :
    (encode i).getLsbD 1 ≠ (encode .srst).getLsbD 1 ∧ (encode i).getLsbD 2 ≠ (encode .srst).getLsbD 2 := by
  cases i with
  | srst => exact absurd rfl h
  | nop | convRgb | convRgba => decide

/-- No flip of one bit makes another command's word `SRST`'s: bit 1 or bit 2 stays (R83). -/
theorem encode_flip_ne_srst {i : Instr} (h : i ≠ .srst) (k : Nat) : encode i ^^^ (1#32 <<< k) ≠ encode .srst := by
  intro e
  obtain ⟨h1, h2⟩ := getLsbD_encode_ne_srst h
  by_cases hk : 1 = k
  · exact h2 (by rw [← e, getLsbD_flip_of_ne _ (by omega)])
  · exact h1 (by rw [← e, getLsbD_flip_of_ne _ hk])

/-- Settles O4: the table's rows, R89's reserved `OP` values, and two bits in which `SRST` stands apart. -/
theorem softResetIsNoSingleBitError : Obligations.SoftResetIsNoSingleBitError := by
  unfold Obligations.SoftResetIsNoSingleBitError
  exact ⟨⟨rfl, rfl, rfl, rfl⟩, fun w h2 h14 => (exists_illegal_iff_toNat w).2 (.inr (.inl ⟨h2, h14⟩)), rfl, rfl, rfl, rfl,
    fun i k h => encode_flip_ne_srst h k⟩

end Sys2Proof

namespace Sys2Proof.Machine

/-! ## Words written to `CMD` -/

theorem execCmd_illegal {w : Word} (h : ∃ why, decode w = .illegal why) (s : State) : execCmd w s = execIllegal s := by
  obtain ⟨why, hw⟩ := h
  rw [execCmd, hw]

/-- A step whose next move writes an illegal word to `CMD`. -/
theorem step_illegal {s : State} {w : Word} {rest : List Move} (h : ∃ why, decode w = .illegal why)
    (hi : s.inbox = issue w :: rest) : step s = execIllegal { s with inbox := rest, reply := .none } :=
  calc step s = execCmd w { s with inbox := rest, reply := .none } := step_host_defined hi rfl
    _ = execIllegal { s with inbox := rest, reply := .none } := execCmd_illegal h _

theorem execIllegal_of_no_err {s : State} (h : s.status.err = false) :
    execIllegal s = .next (enterFault .illegalCmd s) := by
  simp [execIllegal, unlessError, h]

theorem execIllegal_of_err {s : State} (h : s.status.err = true) : execIllegal s = .next s := by
  rw [execIllegal, unlessError, if_pos h]

/-- Settles O3: the words by their fields, the write by the `ERR` gate. -/
theorem illegalWordsFaultOrAreIgnored : Obligations.IllegalWordsFaultOrAreIgnored :=
  ⟨exists_illegal_iff_toNat, fun _ _ _ hw hi =>
    ⟨fun he => (step_illegal hw hi).trans (execIllegal_of_no_err he),
      fun he => (step_illegal hw hi).trans (execIllegal_of_err he)⟩⟩

/-- Settles O7: the placed word is the word itself, and the step that takes it is O6's. -/
theorem fetchedWordRunsNext : Obligations.FetchedWordRunsNext := by
  intro s w i hw
  refine ⟨by rw [decodeTableWord_toNat, hw]; rfl, ?_⟩
  exact stepRunsDecodedCommand (s.withFetchWord 32 w.toNat) w i s.inbox hw (by rw [withFetchWord_inbox, tableWord_toNat])

/-! ## The values of `STATUS` -/

/-- While `ERR = 0` there is no cause, and `BUSY` excludes `DONE`. -/
theorem statusWord_of_no_err {s : State} (h : s.StatusInv) (he : s.status.err = false) :
    (statusWord s.status).toNat = s.status.busy.toNat + 2 * s.status.done.toNat + 256 * s.status.alpha.toNat ∧
      s.status.busy.toNat + s.status.done.toNat ≤ 1 := by
  refine ⟨by simp [statusWord_toNat, h.cause_zero he, he], ?_⟩
  cases hb : s.status.busy with
  | false => simpa using Bool.toNat_le s.status.done
  | true =>
    have hd : s.status.done = false := Bool.eq_false_iff.2 fun hd => h.busy_not_done ⟨hb, hd⟩
    simp [hd]

/-- While `ERR = 1` no conversion runs. -/
theorem statusWord_of_err {s : State} (h : s.StatusInv) (he : s.status.err = true) :
    (statusWord s.status).toNat = 2 * s.status.done.toNat + 4 + 16 * s.status.cause.toNat + 256 * s.status.alpha.toNat := by
  have hb : s.status.busy = false := Bool.eq_false_iff.2 fun hb => h.busy_not_err ⟨hb, he⟩
  simp [statusWord_toNat, hb, he]

/-- Settles O23: in ERROR the number `N` is the cause's code; outside it there is none. -/
theorem readableStatusValues : Obligations.ReadableStatusValues := by
  intro s h
  have ha := Bool.toNat_le s.status.alpha
  have hd := Bool.toNat_le s.status.done
  cases he : s.status.err with
  | false =>
    obtain ⟨hv, hbd⟩ := statusWord_of_no_err h he
    refine ⟨1, by decide, by decide, ?_⟩
    simp only [List.mem_cons, List.not_mem_nil, or_false]
    omega
  | true =>
    have hv := statusWord_of_err h he
    obtain ⟨h1, h6⟩ := h.cause_code he
    refine ⟨s.status.cause.toNat, h1, h6, ?_⟩
    simp only [List.mem_cons, List.not_mem_nil, or_false]
    omega

end Sys2Proof.Machine
end

section
/-! PROOFS. The reference function of R12 against the datapath: `convert` of the latched input frame is the frame the pixel
steps store, byte for byte, and the pixels may be stored in any order (R117). -/

namespace Sys2Proof.Machine

/-! ## Lists made of blocks -/

/-- `n` blocks of `c` entries each, one after another, are the first `n * c` values of a sequence when each block is its
stretch of it. -/
theorem flatMap_range_of_blocks {α : Type} {n c : Nat} {f : Nat → List α} {g : Nat → α}
    (h : ∀ i < n, f i = (List.range c).map fun j => g (i * c + j)) :
    (List.range n).flatMap f = (List.range (n * c)).map g := by
  induction n with
  | zero => simp
  | succ n ih =>
    rw [List.range_succ, List.flatMap_append, ih fun i hi => h i (by omega), List.flatMap_singleton, h n (by omega),
      Nat.succ_mul, List.range_add, List.map_append, List.map_map]
    rfl

/-- A list is its entries by index. -/
theorem eq_map_range_getD (l : List Byte) : l = (List.range l.length).map fun j => l.getD j 0 := by
  refine List.ext_getElem (by simp) fun j hj _ => ?_
  rw [List.getElem_map, List.getElem_range, List.getD_eq_getElem _ _ hj]

/-! ## The reference function -/

/-- A byte of `IBUF` in a read of its first `n` bytes. -/
theorem getD_readIbuf (s : State) {n k : Nat} (hk : k < n) : (readIbuf s 0 n).getD k 0 = ibufByte s k := by
  rw [readIbuf, List.getD_eq_getElem _ _ (by simpa using hk), List.getElem_map, List.getElem_range, Nat.zero_add]

/-- A read of `OBUF` from its start, byte by byte. -/
theorem readObuf_eq_map {s : State} {n : Nat} {g : Nat → Byte} (h : ∀ k < n, obufByte s k = g k) :
    readObuf s 0 n = (List.range n).map g := by
  refine List.map_congr_left fun k hk => ?_
  rw [Nat.zero_add, h k (List.mem_range.1 hk)]

/-- R12's pixel of the latched input frame is the pixel ENGINE fetches and transforms. -/
theorem refPixel_readIbuf {s : State} {row col : Nat} (hw2 : s.wLat.toNat % 2 = 0) (hh2 : s.hLat.toNat % 2 = 0)
    (hr : row < s.hLat.toNat) (hc : col < s.wLat.toNat) :
    refPixel s.wLat.toNat s.hLat.toNat (readIbuf s 0 (fsize s.wLat.toNat s.hLat.toNat)) row col = pixelAt s row col := by
  obtain ⟨hy, hu, hv⟩ := sampleOffsets_lt_fsize hw2 hh2 hr hc
  simp only [yOffset, uOffset, vOffset, ubase, vbase, coff, cidx, ysize, csize, chromaW, chromaH, ← Nat.add_assoc]
    at hy hu hv
  simp only [refPixel, getD_readIbuf s hy, getD_readIbuf s hu, getD_readIbuf s hv]
  simp only [pixelAt, csc, yfetch, ufetch, vfetch, yOffset, uOffset, vOffset, ubase, vbase, coff, cidx, ysize, csize,
    chromaW, chromaH, ← Nat.add_assoc]
  rfl

/-- The bytes `convert` gives a pixel are those of its layout (R87, R88). -/
theorem convert_eq (w h : Nat) (a : Bool) (data : List Byte) : convert w h a data =
    (List.range h).flatMap fun row => (List.range w).flatMap fun col => pixelBytes a (refPixel w h data row col) := by
  cases a <;> rfl

/-- A pixel's bytes are the frame's from its place on. -/
theorem pixelBytes_eq_frameBytes {s : State} {row col : Nat} (hc : col < s.wLat.toNat) :
    pixelBytes s.status.alpha (pixelAt s row col) = (List.range (bpp s.status.alpha)).map fun j =>
      frameByte s ((row * s.wLat.toNat + col) * bpp s.status.alpha + j) := by
  rw [eq_map_range_getD (pixelBytes _ _), pixelBytes_length]
  refine List.map_congr_left fun j hj => ?_
  have hplace : poff s.wLat.toNat row col s.status.alpha = (row * s.wLat.toNat + col) * bpp s.status.alpha := rfl
  rw [← hplace, frameByte_of_pixel hc (Nat.le_add_right _ _) (Nat.add_lt_add_left (List.mem_range.1 hj) _),
    Nat.add_sub_cancel_left]

/-- `convert` of the latched input frame (R12) is the frame the pixel steps store. -/
theorem convert_readIbuf {s : State} (hw2 : s.wLat.toNat % 2 = 0) (hh2 : s.hLat.toNat % 2 = 0) :
    convert s.wLat.toNat s.hLat.toNat s.status.alpha (readIbuf s 0 (fsize s.wLat.toNat s.hLat.toNat)) =
      (List.range (osize s.wLat.toNat s.hLat.toNat s.status.alpha)).map (frameByte s) := by
  have hsize : osize s.wLat.toNat s.hLat.toNat s.status.alpha = s.hLat.toNat * (s.wLat.toNat * bpp s.status.alpha) := by
    rw [osize, Nat.mul_comm s.wLat.toNat, Nat.mul_assoc]
  rw [convert_eq, hsize]
  refine flatMap_range_of_blocks fun row hr => flatMap_range_of_blocks fun col hc => ?_
  rw [refPixel_readIbuf hw2 hh2 hr hc, pixelBytes_eq_frameBytes hc]
  simp only [Nat.add_mul, Nat.mul_assoc, Nat.add_assoc]

/-! ## Pixels in any order -/

/-- The pixel that owns the byte at `OBUF` offset `k`: that of index `k div BPP` (R184). -/
def pixelOfByte (s : State) (k : Nat) : Nat × Nat :=
  (k / bpp s.status.alpha / s.wLat.toNat, k / bpp s.status.alpha % s.wLat.toNat)

/-- A byte stands at the place of the pixel that owns it, and of no other of the frame's columns. -/
theorem pixelOfByte_eq_iff {s : State} {k row col : Nat} (hc : col < s.wLat.toNat) :
    pixelOfByte s k = (row, col) ↔ poff s.wLat.toNat row col s.status.alpha ≤ k ∧
      k < poff s.wLat.toNat row col s.status.alpha + bpp s.status.alpha := by
  rw [pixelOfByte, Prod.mk.injEq, Nat.div_mod_unique (Nat.zero_lt_of_lt hc), poff, ← Nat.succ_mul,
    ← Nat.le_div_iff_mul_le (bpp_pos _), ← Nat.div_lt_iff_lt_mul (bpp_pos _)]
  rw [Nat.mul_comm row, Nat.add_comm col]
  omega

theorem mem_rasterPixels {w h : Nat} {p : Nat × Nat} : p ∈ rasterPixels w h ↔ p.1 < h ∧ p.2 < w := by
  obtain ⟨row, col⟩ := p
  simp [rasterPixels]

/-- The frame's pixels own the bytes below `OSIZE`. -/
theorem pixelOfByte_mem_iff {s : State} {k : Nat} : pixelOfByte s k ∈ rasterPixels s.wLat.toNat s.hLat.toNat ↔
    k < osize s.wLat.toNat s.hLat.toNat s.status.alpha := by
  rw [mem_rasterPixels, pixelOfByte, osize, ← Nat.div_lt_iff_lt_mul (bpp_pos _)]
  rcases Nat.eq_zero_or_pos s.wLat.toNat with hz | hpos
  · simp [hz]
  · rw [Nat.div_lt_iff_lt_mul hpos, Nat.mul_comm s.hLat.toNat, and_iff_left (Nat.mod_lt _ hpos)]

/-- Storing one pixel of the latched frame of `s` puts its bytes of the frame in place and leaves the rest. -/
theorem obufByte_pstore_pixelAt {s u : State} {row col : Nat} (hu : Memory.wf u.obuf = true) (hw : u.wLat = s.wLat)
    (ha : u.status.alpha = s.status.alpha) (hc : col < s.wLat.toNat) (k : Nat) :
    obufByte (pstore u row col (pixelAt s row col)) k =
      if pixelOfByte s k = (row, col) then frameByte s k else obufByte u k := by
  rw [obufByte_pstore _ _ _ _ hu, hw, ha]
  by_cases hk : pixelOfByte s k = (row, col)
  · obtain ⟨hlo, hhi⟩ := (pixelOfByte_eq_iff hc).1 hk
    rw [if_pos hk, if_pos ⟨hlo, hhi⟩, frameByte_of_pixel hc hlo hhi]
  · rw [if_neg hk, if_neg (mt (pixelOfByte_eq_iff hc).2 hk)]

/-- Storing pixels puts the bytes of those listed in place and leaves the rest: neither their order nor a repetition shows. -/
theorem obufByte_storePixels {s u : State} {l : List (Nat × Nat)} (hl : ∀ p ∈ l, p.2 < s.wLat.toNat)
    (hu : Memory.wf u.obuf = true) (hw : u.wLat = s.wLat) (ha : u.status.alpha = s.status.alpha) (k : Nat) :
    obufByte (storePixels s l u) k = if pixelOfByte s k ∈ l then frameByte s k else obufByte u k := by
  induction l generalizing u with
  | nil => simp [storePixels]
  | cons p l ih =>
    obtain ⟨hp, hl⟩ := List.forall_mem_cons.1 hl
    have hrest : obufByte (storePixels s (p :: l) u) k =
        if pixelOfByte s k ∈ l then frameByte s k else obufByte (pstore u p.1 p.2 (pixelAt s p.1 p.2)) k :=
      ih hl (Memory.wf_write _ _ hu) hw ha
    rw [hrest, obufByte_pstore_pixelAt hu hw ha hp]
    by_cases hk : pixelOfByte s k ∈ l <;> simp [hk]

/-- Settles O59: after the stores, in any order, exactly the bytes the listed pixels own are the frame's. -/
theorem pixelOrderDoesNotMatter : Obligations.PixelOrderDoesNotMatter := by
  intro s u l hu hw2 hh2 hw ha hperm w h a
  have hcols : ∀ p ∈ l, p.2 < s.wLat.toNat := fun p hp => (mem_rasterPixels.1 (hperm.mem_iff.1 hp)).2
  have hbytes (k : Nat) : obufByte (storePixels s l u) k = if k < osize w h a then frameByte s k else obufByte u k := by
    rw [obufByte_storePixels hcols hu hw ha]
    exact if_congr (hperm.mem_iff.trans pixelOfByte_mem_iff) rfl rfl
  refine ⟨?_, fun k hk => by rw [hbytes, if_neg (by omega)]⟩
  rw [convert_readIbuf hw2 hh2]
  exact readObuf_eq_map fun k hk => by rw [hbytes, if_pos hk]

end Sys2Proof.Machine
end

section
/-! PROOFS. ENGINE under the invariants: its pixel step completes (R114), converts one pixel, and the sequencer walks the
frame in raster order (R115, R116). -/

namespace Sys2Proof.Machine

/-! ## The pixel step completes -/

/-- While BUSY what R114 and R61 assert of ENGINE holds, so its step is the pixel step's effect. -/
theorem step_engine {s : State} {rest : List Move} (hs : s.FrameInv) (hb : s.status.busy = true) (hn : EngineNext s rest) :
    step s = .next (pixelEffect { s with inbox := rest }) := by
  obtain ⟨hr, hc⟩ := hs.pos_in hb
  have hi := hs.input_fits hb
  obtain ⟨hy, hu, hv⟩ := sampleOffsets_lt_fsize (hs.width_ok hb).2 (hs.height_ok hb).2 hr hc
  have ho := (poff_add_bpp_le_osize s.status.alpha hr hc).trans (hs.output_fits hb)
  refine step_pixel hn hb (posInFrame_iff.2 ⟨hr, hc⟩) ?_ (obufHas_iff.2 ?_)
  · simp only [fetchesInRange, ibufHas, Bool.and_eq_true, decide_eq_true_eq]
    exact ⟨⟨hy.trans_le hi, hu.trans_le hi⟩, hv.trans_le hi⟩
  · have := bpp_pos s.status.alpha
    omega

/-- While not BUSY ENGINE performs nothing (R113). -/
theorem step_engine_idle {s : State} {rest : List Move} (hb : s.status.busy = false) (hn : EngineNext s rest) :
    step s = .next { s with inbox := rest } := by
  rw [engineNext_self hn, engineMove, if_neg (by simp [hb])]

/-! ## The position after it -/

/-- Within a row `NEXT` goes one column on (R115). -/
theorem nextPos_within_row {w : Dim} {p : Pos} (hc : p.col.toNat + 1 < w.toNat) :
    (nextPos w.toNat p).row = p.row ∧ (nextPos w.toNat p).col.toNat = p.col.toNat + 1 := by
  have hw := w.isLt
  rw [nextPos, if_pos hc]
  exact ⟨rfl, BitVec.toNat_add_of_lt (show p.col.toNat + 1 < 2 ^ 16 by omega)⟩

/-- At the end of a row that is not the last `NEXT` goes to the start of the row below (R115). -/
theorem nextPos_end_of_row {w h : Dim} {p : Pos} (hc : p.col.toNat + 1 = w.toNat) (hr : p.row.toNat + 1 < h.toNat) :
    (nextPos w.toNat p).row.toNat = p.row.toNat + 1 ∧ (nextPos w.toNat p).col = 0 := by
  have hh := h.isLt
  rw [nextPos, if_neg (by omega)]
  exact ⟨BitVec.toNat_add_of_lt (show p.row.toNat + 1 < 2 ^ 16 by omega), rfl⟩

/-- At the last pixel the pixel step ends the conversion (R116). -/
theorem pixelEffect_of_last {s : State} (h : s.pos.row.toNat + 1 = s.hLat.toNat ∧ s.pos.col.toNat + 1 = s.wLat.toNat) :
    (pixelEffect s).status = ⟨false, true, s.status.err, s.status.cause, s.status.alpha⟩ ∧ (pixelEffect s).pos = ⟨0, 0⟩ := by
  have hl := atLastPixel_iff.2 h
  rw [pixelEffect_status, pixelEffect_pos, if_pos hl, if_pos hl]
  exact ⟨rfl, rfl⟩

/-- At every other pixel it goes on to the next (R115). -/
theorem pixelEffect_of_not_last {s : State}
    (h : ¬(s.pos.row.toNat + 1 = s.hLat.toNat ∧ s.pos.col.toNat + 1 = s.wLat.toNat)) :
    (pixelEffect s).status = s.status ∧ (pixelEffect s).pos = nextPos s.wLat.toNat s.pos := by
  have hl := mt atLastPixel_iff.1 h
  rw [pixelEffect_status, pixelEffect_pos, if_neg hl, if_neg hl]
  exact ⟨rfl, rfl⟩

/-- Settles O41, by the pixel's place in its row and frame. -/
theorem sequencerWalksRasterOrder : Obligations.SequencerWalksRasterOrder := by
  intro s rest hs hb hi w h row col
  refine ⟨_, step_engine hs.frame hb (.inl hi), fun hc => ?_, fun hc hr => ?_, fun hc hr => ?_⟩
  · obtain ⟨hst, hp⟩ := pixelEffect_of_not_last (s := { s with inbox := rest }) fun e => Nat.ne_of_lt hc e.2
    obtain ⟨hrow, hcol⟩ := nextPos_within_row (w := s.wLat) (p := s.pos) hc
    rw [hp]
    exact ⟨congrArg BitVec.toNat hrow, hcol, hst⟩
  · obtain ⟨hst, hp⟩ := pixelEffect_of_not_last (s := { s with inbox := rest }) fun e => Nat.ne_of_lt hr e.1
    obtain ⟨hrow, hcol⟩ := nextPos_end_of_row (w := s.wLat) (h := s.hLat) (p := s.pos) hc hr
    rw [hp]
    exact ⟨hrow, congrArg BitVec.toNat hcol, hst⟩
  · obtain ⟨hst, hp⟩ := pixelEffect_of_last (s := { s with inbox := rest }) ⟨hr, hc⟩
    refine ⟨hp, ?_, ?_, pixelEffect_wLat _, pixelEffect_hLat _, pixelEffect_alpha _, fun hie => ?_⟩
    · rw [hst]
    · rw [hst]
    · rw [irqOf, hst, pixelEffect_irqEn]
      simp [hie]

/-- A pixel step moves `pos` or clears `BUSY`. -/
theorem pixelEffect_ne_self {s : State} (hb : s.status.busy = true) (hp : posInFrame s = true) : pixelEffect s ≠ s := by
  intro e
  by_cases hl : s.pos.row.toNat + 1 = s.hLat.toNat ∧ s.pos.col.toNat + 1 = s.wLat.toNat
  · have hst := (pixelEffect_of_last hl).1
    rw [e] at hst
    rw [hst] at hb
    cases hb
  · have hpos := (pixelEffect_of_not_last hl).2
    obtain ⟨hr, hc⟩ := posInFrame_iff.1 hp
    have hnext := (nextPos_spec hr hc hl).2.2
    rw [e] at hpos
    rw [← hpos] at hnext
    omega

/-- Settles O39: idle, ENGINE's move is the only thing taken; BUSY, its step completes and moves on. -/
theorem engineStepsExactlyWhenBusy : Obligations.EngineStepsExactlyWhenBusy := by
  intro s rest hn
  refine ⟨fun hb => step_engine_idle hb hn, fun hs hb => ⟨_, step_engine hs.frame hb hn, ?_⟩⟩
  exact pixelEffect_ne_self (s := { s with inbox := rest }) hb (posInFrame_iff.2 (hs.frame.pos_in hb))

/-! ## The pixel it converts -/

/-- The bytes of `OBUF` at a pixel's place after its store (R87, R88, R182). -/
theorem obufByte_pstore_place {s : State} (row col : Nat) (p : Rgb) (hw : Memory.wf s.obuf = true) {j : Nat}
    (hj : j < bpp s.status.alpha) :
    obufByte (pstore s row col p) (poff s.wLat.toNat row col s.status.alpha + j) = (pixelBytes s.status.alpha p).getD j 0 := by
  rw [obufByte_pstore _ _ _ _ hw, if_pos (by omega), Nat.add_sub_cancel_left]

/-- The store leaves every byte outside that place. -/
theorem obufByte_pstore_elsewhere {s : State} (row col : Nat) (p : Rgb) (hw : Memory.wf s.obuf = true) {k : Nat}
    (hk : k < poff s.wLat.toNat row col s.status.alpha ∨
      poff s.wLat.toNat row col s.status.alpha + bpp s.status.alpha ≤ k) : obufByte (pstore s row col p) k = obufByte s k := by
  rw [obufByte_pstore _ _ _ _ hw, if_neg (by omega)]

/-- A pixel step keeps `ERR` and `CAUSE`. -/
theorem pixelEffect_err (s : State) : (pixelEffect s).status.err = s.status.err := by
  rw [pixelEffect_status]
  split_ifs <;> rfl

theorem pixelEffect_cause (s : State) : (pixelEffect s).status.cause = s.status.cause := by
  rw [pixelEffect_status]
  split_ifs <;> rfl

/-- Settles O40: the effect of the step is the store of the pixel at `pos`, then a change of `pos` and flags only. -/
theorem pixelStepConvertsOnePixel : Obligations.PixelStepConvertsOnePixel := by
  intro s rest hs hb hi w h row col p rgb
  have hw : Memory.wf s.obuf = true := hs.buffers.obuf_wf
  have hbytes := obufByte_pixelEffect { s with inbox := rest }
  have hplace : ∀ {j : Nat}, j < bpp s.status.alpha →
      obufByte (pixelEffect { s with inbox := rest }) (p + j) = (pixelBytes s.status.alpha rgb).getD j 0 := fun hj =>
    (hbytes _).trans (obufByte_pstore_place (s := { s with inbox := rest }) row col rgb hw hj)
  have hbpp : 3 ≤ bpp s.status.alpha := Nat.le_add_right 3 _
  refine ⟨_, step_engine hs.frame hb (.inl hi), hplace (j := 0) (by omega), hplace (j := 1) (by omega),
    hplace (j := 2) (by omega), fun ha => ?_, fun k hk => ?_, fun k => ?_, pixelEffect_width _, pixelEffect_height _,
    pixelEffect_inLen _, pixelEffect_irqEn _, pixelEffect_wLat _, pixelEffect_hLat _, pixelEffect_alpha _, pixelEffect_err _, pixelEffect_cause _,
    pixelEffect_reply _⟩
  · rw [hplace (by rw [ha]; decide), ha]
    rfl
  · rw [Nat.add_assoc] at hk
    exact (hbytes k).trans (obufByte_pstore_elsewhere (s := { s with inbox := rest }) row col rgb hw hk)
  · exact ibufByte_congr (pixelEffect_ibuf _) (pixelEffect_bufDraw _) k

end Sys2Proof.Machine
end

section
/-! PROOFS. A conversion from its acceptance on, under every interleaving R121 allows: no move is refused or faults, `n`
pixel steps leave the first `n` pixels of R12's frame (R119), and the last one ends it with the whole frame in `OBUF`
(R121). -/

namespace Sys2Proof.Machine

/-! ## One move -/

/-- What the moves `ms` of R121's kind leave from `u` to `v` besides the conversion itself: `ERR`, and each byte of `IBUF`
that HOST does not write. -/
structure LeftBy (ms : List Move) (u v : State) : Prop where
  err : v.status.err = u.status.err
  ibuf : ∀ k, (∀ b, Move.host (.stbIbuf k b) ∉ ms) → ibufByte v k = ibufByte u k

theorem LeftBy.refl (u : State) : LeftBy [] u u := ⟨rfl, fun _ _ => rfl⟩

theorem LeftBy.trans {ms ms' : List Move} {u v t : State} (h : LeftBy ms u v) (h' : LeftBy ms' v t) :
    LeftBy (ms ++ ms') u t where
  err := h'.err.trans h.err
  ibuf k hk := by
    simp only [List.mem_append, not_or, forall_and] at hk
    rw [h'.ibuf k hk.2, h.ibuf k hk.1]

/-- A move of R121's kind is refused in no state of a conversion, and faults in none. -/
theorem Converting.exists_step {s u : State} {n : Nat} {m : Move} {rest : List Move} (h : Converting s n u)
    (hi : u.inbox = m :: rest) (hq : moveQuiet (fsize s.wLat.toNat s.hLat.toNat) m = true) : ∃ v, step u = .next v := by
  cases m with
  | host x =>
    rw [step_host_defined hi (Bool.and_eq_true_iff.1 hq).1]
    exact performTxn_next x _
  | engine => exact ⟨_, step_engine h.frame h.busy (.inl hi)⟩
  | reset => cases hq

/-- The only word R121 lets HOST write to `CMD` is `NOP`'s. -/
theorem eq_zero_of_moveQuiet {n : Nat} {w : Word} (hq : moveQuiet n (issue w) = true) : w = 0 := by
  simpa using (Bool.and_eq_true_iff.1 (show txnQuiet n (.wr 32 0x00 w) = true from hq)).2

theorem ne_reset_of_moveQuiet {n : Nat} {m : Move} (hq : moveQuiet n m = true) : m ≠ .reset := fun e => by
  rw [e] at hq
  cases hq

/-- A move of R121's kind leaves `ERR`: it is no reset and no command word that faults. -/
theorem StepEffect.err_of_moveQuiet {u v : State} {m : Move} {n : Nat} (h : StepEffect u v) (hh : u.inbox.head? = some m)
    (hq : moveQuiet n m = true) : v.status.err = u.status.err := by
  have isNop : ∀ {w : Word}, u.inbox.head? = some (issue w) → w = 0 := fun hw =>
    eq_zero_of_moveQuiet (Option.some.inj (hh.symm.trans hw) ▸ hq)
  cases h with
  | idle | quiet | ibufWrite | accept => rfl
  | pixel => exact pixelEffect_err _
  | regWrite bits off v => rw [writeReg_status]; split_ifs <;> simp
  | reset hr => exact absurd (Option.some.inj (hh.symm.trans hr)) (ne_reset_of_moveQuiet hq)
  | fault w c hw hne => exact absurd (isNop hw) hne
  | srst hw => exact absurd (isNop hw) (by decide)

/-- So a move of R121's kind leaves `ERR` and every byte of `IBUF` that it does not write. -/
theorem StepEffect.leftBy {u v : State} {m : Move} {n : Nat} (h : StepEffect u v) (hh : u.inbox.head? = some m)
    (hq : moveQuiet n m = true) (hw : Memory.wf u.ibuf = true) : LeftBy [m] u v where
  err := h.err_of_moveQuiet hh hq
  ibuf k hk := by
    refine h.ibufByte_eq (resetNext_eq_false_of_head hh (ne_reset_of_moveQuiet hq)) hw fun b hb => hk b ?_
    rw [Option.some.inj (hh.symm.trans hb)]
    exact List.mem_singleton_self _

/-- One move of R121's kind, which is not the last pixel step, goes on with the conversion. -/
theorem Converting.move {s u : State} {n : Nat} {m : Move} {rest : List Move} (h : Converting s n u)
    (hi : u.inbox = m :: rest) (hq : moveQuiet (fsize s.wLat.toNat s.hLat.toNat) m = true)
    (hn : n + engineMoves [m] < s.wLat.toNat * s.hLat.toNat) :
    ∃ v, step u = .next v ∧ Converting s (n + engineMoves [m]) v ∧ v.inbox = rest ∧ LeftBy [m] u v := by
  obtain ⟨v, hv⟩ := h.exists_step hi hq
  have he := stepEffect_of_step hv
  have hh : u.inbox.head? = some m := by rw [hi]; rfl
  refine ⟨v, hv, ?_, by rw [he.inbox_eq, hi]; rfl, he.leftBy hh hq h.buffers.ibuf_wf⟩
  cases m with
  | host x => exact h.host he hh hq
  | engine => exact h.engine he hh hn
  | reset => cases hq

/-! ## Runs -/

/-- Moves of R121's kind, with fewer than `W*H` pixel steps in all, complete and go on with the conversion (R119). -/
theorem Converting.run {s : State} {rest : List Move} (ms : List Move) :
    ∀ {n : Nat} {u : State}, Converting s n u → u.inbox = ms ++ rest →
      (∀ m ∈ ms, moveQuiet (fsize s.wLat.toNat s.hLat.toNat) m = true) →
      n + engineMoves ms < s.wLat.toNat * s.hLat.toNat →
      ∃ v : State, Host.Core.run core ms.length u = .next v ∧ Converting s (n + engineMoves ms) v ∧ v.inbox = rest ∧
        LeftBy ms u v := by
  induction ms with
  | nil => exact fun {_ u} h hi _ _ => ⟨u, rfl, h, hi, LeftBy.refl u⟩
  | cons m ms ih =>
    intro n u h hi hq hn
    obtain ⟨hqm, hqms⟩ := List.forall_mem_cons.1 hq
    have hcount : engineMoves (m :: ms) = engineMoves [m] + engineMoves ms := List.count_append (l₁ := [m])
    rw [hcount, ← Nat.add_assoc] at hn ⊢
    obtain ⟨v, hstep, hv, hvi, hleft⟩ := h.move hi hqm (by omega)
    obtain ⟨t, hrun, ht, hti, hleft'⟩ := ih hv hvi hqms hn
    exact ⟨t, run_step hstep hrun, ht, hti, hleft.trans hleft'⟩

/-- The last pixel step ends the conversion, with the whole frame in `OBUF` (R116, R121). -/
theorem Converting.last {s u : State} {n : Nat} (h : Converting s n u) (hi : u.inbox = [.engine])
    (hn : n + 1 = s.wLat.toNat * s.hLat.toNat) :
    ∃ v, step u = .next v ∧ v.status = ⟨false, true, u.status.err, u.status.cause, u.status.alpha⟩ ∧ LeftBy [.engine] u v ∧
      ∀ k, obufByte v k =
        if k < osize s.wLat.toNat s.hLat.toNat s.status.alpha then frameByte s k else obufByte s k := by
  obtain ⟨v, hv⟩ := h.exists_step hi rfl
  have he := stepEffect_of_step hv
  have hh : u.inbox.head? = some .engine := by rw [hi]; rfl
  refine ⟨v, hv, ?_, he.leftBy (n := 0) hh rfl h.buffers.ibuf_wf, fun k => ?_⟩
  · obtain ⟨hr, hc⟩ := h.frame.pos_in h.busy
    have hlast : u.pos.row.toNat + 1 = u.hLat.toNat ∧ u.pos.col.toNat + 1 = u.wLat.toNat := by
      by_contra hl
      have hnext := nextPos_spec hr hc hl
      have hlt := rasterIndex_lt hnext.1 hnext.2.1
      have hraster := h.raster
      rw [← h.wLat] at hraster
      rw [hnext.2.2, hraster, hn, h.wLat, h.hLat] at hlt
      exact Nat.lt_irrefl _ hlt
    rw [he.eq_pixelEffect hh h.busy]
    exact (pixelEffect_of_last (s := u.taken u.reply) hlast).1
  · rw [h.obufByte_engine he hh k, hn]
    rfl

/-! ## The obligations -/

/-- Right after its acceptance a conversion under way, with the moves `ms` to come, has gone on by them. -/
theorem run_of_accepted {a : Bool} {s s1 : State} {ms rest : List Move} (hs : s.BufferInv) (hc : CanConvert a s)
    (hx : exec (convCommand a) s = .next s1)
    (hq : ∀ m ∈ ms, moveQuiet (fsize s.width.toNat s.height.toNat) m = true)
    (hn : engineMoves ms < s.width.toNat * s.height.toNat) :
    ∃ t : State, Host.Core.run core ms.length ({ s1 with inbox := ms ++ rest } : State) = .next t ∧
      Converting (acceptConv a s) (engineMoves ms) t ∧ t.inbox = rest ∧ LeftBy ms s t := by
  rw [exec_convCommand hc] at hx
  cases hx
  obtain ⟨t, hrun, ht, hti, herr, hib⟩ :=
    (converting_of_canConvert hs hc (ms ++ rest)).run ms rfl hq (by rw [Nat.zero_add]; exact hn)
  exact ⟨t, hrun, by rwa [Nat.zero_add] at ht, hti, herr, hib⟩

/-- `convert` of the input frame of the accepting state is the frame the conversion stores. -/
theorem convert_of_accepted {a : Bool} {s : State} (hc : CanConvert a s) :
    convert s.width.toNat s.height.toNat a (readIbuf s 0 (fsize s.width.toNat s.height.toNat)) =
      (List.range (osize s.width.toNat s.height.toNat a)).map (frameByte (acceptConv a s)) :=
  convert_readIbuf (s := acceptConv a s) hc.width_even hc.height_even

/-- Settles O56: the bytes below `n*BPP` are the frame's, and `n*BPP` is at most its size. -/
theorem conversionProgress : Obligations.ConversionProgress := by
  intro a s s1 ms hs hc hx w h n hq hn
  obtain ⟨t, hrun, ht, -, -⟩ := run_of_accepted (rest := []) hs hc hx hq hn
  rw [List.append_nil] at hrun
  refine ⟨t, hrun, ht.busy, ht.raster, ?_, fun k hk => (ht.output k).trans (if_neg (Nat.not_lt.2 hk))⟩
  have hle : n * bpp a ≤ osize w h a := Nat.mul_le_mul_right _ hn.le
  rw [convert_of_accepted hc, ← List.map_take, List.take_range, Nat.min_eq_left hle]
  exact readObuf_eq_map fun k hk => (ht.output k).trans (if_pos hk)

/-- Settles O55: the moves before the last pixel step go on with the conversion, and that step ends it. -/
theorem conversionComputesReferenceFunction : Obligations.ConversionComputesReferenceFunction := by
  intro a s s1 ms hs hc hx w h hq hn
  refine ⟨fun n hle => ?_, ?_⟩
  · have hcount : engineMoves (ms.take n) ≤ engineMoves ms := (List.take_sublist n ms).count_le _
    obtain ⟨u, hrun, hu, -, -⟩ := run_of_accepted (ms := ms.take n) (rest := ms.drop n ++ [.engine]) hs hc hx
      (fun m hm => hq m (List.mem_of_mem_take hm)) (show _ < w * h by omega)
    rw [← List.append_assoc, List.take_append_drop, List.length_take, Nat.min_eq_left hle] at hrun
    exact ⟨u, hrun, hu.busy⟩
  · obtain ⟨u, hrun, hu, hui, hleft⟩ := run_of_accepted (rest := [.engine]) hs hc hx hq (show _ < w * h by omega)
    obtain ⟨t, hstep, hst, hleft', hout⟩ := hu.last hui hn
    have hkept := hleft.trans hleft'
    refine ⟨t, run_append rfl hrun (run_step hstep rfl), ?_, fun k hk => ?_, fun k hk => ?_, ?_, ?_, ?_, ?_⟩
    · rw [convert_of_accepted hc]
      exact readObuf_eq_map fun k hk => (hout k).trans (if_pos hk)
    · exact (hout k).trans (if_neg (Nat.not_lt.2 hk))
    · exact hkept.ibuf k fun b hb => hk b (by simpa using hb)
    · rw [hst]; exact hu.alpha
    · rw [hst]
    · rw [hst]
    · rw [hkept.err, hc.no_err]

end Sys2Proof.Machine
end

section
/-! PROOFS. The commands and the HOST transactions of 40_commands.md: what each command does and leaves, the value of every
read and the effect of every write, and what HOST cannot read. -/

namespace Sys2Proof.Machine

/-! ## Commands -/

/-- A conversion command is `conv` behind the `ERR` gate (R107, R110, R111). -/
theorem exec_convCommand_eq (a : Bool) (s : State) : exec (convCommand a) s = .next (unlessError s (conv a)) := by
  cases a <;> rfl

theorem exec_convCommand_of_no_err {s : State} (a : Bool) (he : s.status.err = false) :
    exec (convCommand a) s = .next (conv a s) := by
  rw [exec_convCommand_eq, unlessError, if_neg (by simp [he])]

/-- A conversion command whose checks fail enters the fault of the first that does (R109, R199). -/
theorem exec_convCommand_of_fault {s : State} {a : Bool} {c : Cause} (he : s.status.err = false)
    (hf : convFault Config.ibufBytes Config.obufBytes s.status.busy s.width s.height s.inLen a = some c) :
    exec (convCommand a) s = .next (enterFault c s) := by
  rw [exec_convCommand_of_no_err a he, conv, hf]

/-- Every command but `SRST` is `NOP` or a conversion command. -/
theorem eq_nop_or_convCommand {i : Instr} (h : i ≠ .srst) : i = .nop ∨ ∃ a, i = convCommand a := by
  cases i with
  | nop => exact .inl rfl
  | convRgb => exact .inr ⟨false, rfl⟩
  | convRgba => exact .inr ⟨true, rfl⟩
  | srst => exact absurd rfl h

/-- Settles O13: `NOP` does nothing anyway, the conversion commands stand behind the `ERR` gate. -/
theorem commandsIgnoredInError : Obligations.CommandsIgnoredInError := by
  intro i s he hi
  obtain rfl | ⟨a, rfl⟩ := eq_nop_or_convCommand hi
  · rfl
  · rw [exec_convCommand_eq, unlessError, if_pos he]

/-- Settles O8: word 0x10 sets `A` without `OP = 0x1`. -/
theorem nopChangesNothing : Obligations.NopChangesNothing :=
  ⟨rfl, (exists_illegal_iff_toNat _).2 (by decide), fun _ => rfl⟩

/-- Settles O9: with every check passed the command is `acceptConv`, and `ERR` was 0. -/
theorem acceptedConversionStarts : Obligations.AcceptedConversionStarts := by
  intro a s hc
  exact (exec_convCommand hc).trans (by simp only [acceptConv, hc.no_err])

/-- Settles O10, by R199's order of the checks. -/
theorem firstFailedCheckDecidesCause : Obligations.FirstFailedCheckDecidesCause := by
  intro a s he run w h
  have fault : ∀ {c}, convFault Config.ibufBytes Config.obufBytes s.status.busy s.width s.height s.inLen a = some c →
      run = .next (enterFault c s) := exec_convCommand_of_fault he
  simp only [convFault, dim_eq_zero_iff, dim_odd_iff] at fault
  refine ⟨fun hb => fault ?_, fun hb hz => fault ?_, fun hb hw hh ho => fault ?_, fun hb hw hh hw2 hh2 hfit => fault ?_,
    fun hb hw hh hw2 hh2 hi ho hl => fault ?_⟩
  · rw [if_pos hb]
  · rw [if_neg (by simp [hb]), if_pos hz]
  · rw [if_neg (by simp [hb]), if_neg (by omega), if_pos ho]
  · rw [if_neg (by simp [hb]), if_neg (by omega), if_neg (by omega), if_pos hfit]
  · rw [if_neg (by simp [hb]), if_neg (by omega), if_neg (by omega),
      if_neg (not_or.2 ⟨Nat.not_lt.2 hi, Nat.not_lt.2 ho⟩), if_pos hl]

/-- What aborts a frame and leaves `OBUF` otherwise changes no byte outside that frame. -/
theorem obufByte_of_abort {s t : State} {k : Nat} (ho : t.obuf = (abortFrame s).obuf) (hd : t.bufDraw = s.bufDraw)
    (hw : Memory.wf s.obuf = true)
    (hk : s.status.busy = false ∨ osize s.wLat.toNat s.hLat.toNat s.status.alpha ≤ k) : obufByte t k = obufByte s k := by
  rw [obufByte_congr ho (by rw [hd, abortFrame_bufDraw]), obufByte_abortFrame k hw hk]

/-- Settles O14: `softReset` field by field; its abort is the only thing that touches `OBUF`. -/
theorem softResetEffect : Obligations.SoftResetEffect := by
  refine ⟨rfl, (exists_illegal_iff_toNat _).2 (by decide), fun s hw => ⟨softReset s, rfl, ?_⟩⟩
  refine ⟨softReset_status s, softReset_width s, softReset_height s, softReset_inLen s, softReset_irqEn s,
    softReset_wLat s, softReset_hLat s, softReset_pos s, fun k => ibufByte_congr (softReset_ibuf s) (softReset_bufDraw s) k, fun k hk => ?_⟩
  exact obufByte_of_abort (softReset_obuf s) (softReset_bufDraw s) hw hk

/-- What a command other than `SRST` can do: nothing, a fault, or an acceptance. -/
theorem exec_cases {i : Instr} {s t : State} (hi : i ≠ .srst) (h : exec i s = .next t) :
    t = s ∨ (∃ c, t = enterFault c s) ∨ ∃ a, i = convCommand a ∧ CanConvert a s ∧ t = acceptConv a s := by
  by_cases he : s.status.err = true
  · rw [commandsIgnoredInError i s he hi] at h
    cases h
    exact .inl rfl
  rw [Bool.not_eq_true] at he
  obtain rfl | ⟨a, rfl⟩ := eq_nop_or_convCommand hi
  · cases h
    exact .inl rfl
  · rw [exec_convCommand_of_no_err a he] at h
    cases h
    rcases conv_cases a s he with ⟨c, -, hc⟩ | ⟨hc, ht⟩
    · exact .inr (.inl ⟨c, hc⟩)
    · exact .inr (.inr ⟨a, rfl, hc, ht⟩)

/-- Settles O15, by what such a command can do. -/
theorem commandFrame : Obligations.CommandFrame := by
  intro i s t hi hw h
  rcases exec_cases hi h with rfl | ⟨c, rfl⟩ | ⟨a, rfl, hc, rfl⟩
  · exact ⟨rfl, rfl, rfl, rfl, fun _ => rfl, fun _ _ => rfl, .inr ⟨rfl, rfl, rfl, rfl⟩, rfl, rfl⟩
  · exact ⟨enterFault_width s c, enterFault_height s c, enterFault_inLen s c, enterFault_irqEn s c,
      ibufByte_congr (enterFault_ibuf s c) (enterFault_bufDraw s c),
      fun _ => obufByte_of_abort (enterFault_obuf s c) (enterFault_bufDraw s c) hw, .inr (by simp), enterFault_inbox s c,
      enterFault_reply s c⟩
  · exact ⟨rfl, rfl, rfl, rfl, fun _ => rfl, fun _ _ => rfl, .inl ⟨a, rfl, hc⟩, rfl, rfl⟩

/-! ## Registers -/

theorem regAccessDefined_word {off : Nat} (h4 : off % 4 = 0) (ho : off < 256) : regAccessDefined 32 off = true := by
  simp [regAccessDefined, h4, ho]

/-- A reserved offset reads 0 (R35, R100). -/
theorem readReg_reserved (s : State) {off : Nat} (ho : 0x18 ≤ off) : readReg s off = 0 := by
  rw [readReg, if_neg (by omega), if_neg (by omega), if_neg (by omega), if_neg (by omega), if_neg (by omega),
    if_neg (by omega)]

/-- A write to a reserved offset is ignored (R35, R101). -/
theorem writeReg_reserved (s : State) (v : Word) {off : Nat} (ho : 0x18 ≤ off) : writeReg s off v = s := by
  rw [writeReg, if_neg (by omega), if_neg (by omega), if_neg (by omega), if_neg (by omega), if_neg (by omega)]

/-- Settles O16: the read is defined and answers `readReg`. -/
theorem registerReadValues : Obligations.RegisterReadValues := by
  intro s off rest h4 ho hi
  refine ⟨readReg s off, step_host_defined hi (regAccessDefined_word h4 ho), ?_, ?_, ?_, ?_, ?_, ?_, readReg_reserved s⟩
  · rintro rfl; rfl
  · rintro rfl; exact statusWord_toNat s.status
  · rintro rfl; exact BitVec.toNat_setWidth_of_le (show 16 ≤ 32 by decide)
  · rintro rfl; exact BitVec.toNat_setWidth_of_le (show 16 ≤ 32 by decide)
  · rintro rfl; rfl
  · rintro rfl; exact irqEnWord_toNat s.irqEn

/-- Settles O17: the write is defined and is `writeReg`. -/
theorem registerWriteEffects : Obligations.RegisterWriteEffects := by
  intro s off v rest h4 ho h0 hi s'
  have hstep : step s = .next (writeReg s' off v) := by
    rw [step_host_defined hi (regAccessDefined_word h4 ho), performTxn, if_neg h0]
  rw [hstep]
  refine ⟨?_, ?_, ?_, ?_, ?_, fun hr => by rw [writeReg_reserved _ _ hr]⟩
  · rintro rfl
    rw [writeReg, if_pos rfl, writeOneToClear_eq]
  · rintro rfl; rfl
  · rintro rfl; rfl
  · rintro rfl; rfl
  · rintro rfl; rfl

/-! ## Buffers -/

/-- Settles O18: a read of an offset that exists is defined and answers the byte. -/
theorem bufferReadValues : Obligations.BufferReadValues :=
  fun _ _ _ => ⟨fun ho hi => step_ldbIbuf hi ho, fun ho hi => step_ldbObuf hi ho⟩

/-- Settles O19: the written offset reads the byte, every other one what it read before. -/
theorem bufferWriteEffects : Obligations.BufferWriteEffects := by
  refine fun s off b rest hw =>
    ⟨fun ho hi => ⟨_, step_stbIbuf hi ho, ?_, fun k hk => ?_, rfl⟩, fun ho hi => step_stbObuf hi ho⟩
  · exact (ibufByte_storeIbuf off b off hw).trans (if_pos rfl)
  · exact (ibufByte_storeIbuf off b k hw).trans (if_neg hk)

/-! ## What HOST cannot read -/

/-- What a HOST transaction returns, from what a state lets HOST read. -/
def replyOf (x : Txn) (s : State) : Reply :=
  match x with
  | .rd _ off => .word (readReg s off)
  | .ldbIbuf off => .byte (ibufByte s off)
  | .ldbObuf off => .byte (obufByte s off)
  | _ => .none

@[simp] theorem writeReg_reply (s : State) (off : Nat) (v : Word) : (writeReg s off v).reply = s.reply := by
  unfold writeReg; split_ifs <;> rfl

/-- No command returns anything. -/
theorem reply_of_execCmd {w : Word} {s t : State} (h : execCmd w s = .next t) : t.reply = s.reply := by
  rcases execCmd_cases h with ⟨-, rfl⟩ | ⟨c, -, -, rfl⟩ | ⟨a, -, -, rfl⟩ | ⟨-, rfl⟩ <;> simp

/-- A HOST transaction that completes leaves its reply, whatever else it does. -/
theorem reply_of_performTxn {x : Txn} {s t : State} (hs : s.reply = .none) (h : performTxn x s = .next t) :
    t.reply = replyOf x s := by
  cases x with
  | rd | ldbIbuf | ldbObuf => cases h; rfl
  | stbIbuf | stbObuf => cases h; exact hs
  | wr bits off v =>
    simp only [performTxn] at h
    split_ifs at h
    · exact (reply_of_execCmd h).trans hs
    · cases h
      exact (writeReg_reply s off v).trans hs

/-- A step that is a HOST transaction leaves the reply of the state before it. -/
theorem reply_of_step_host {x : Txn} {s t : State} {rest : List Move} (hi : s.inbox = .host x :: rest)
    (h : step s = .next t) : t.reply = replyOf x s := by
  by_cases hd : txnDefined x = true
  · rw [step_host_defined hi hd] at h
    rw [reply_of_performTxn rfl h]
    cases x <;> rfl
  · rw [step_host_undefined hi (by simpa using hd)] at h
    cases h

/-- Settles O22: what a transaction returns does not look at `w_lat`, `h_lat` or `pos`. -/
theorem hiddenStateIsNotReadable : Obligations.HiddenStateIsNotReadable := by
  intro s u u' w h p x rest hu hu'
  rw [reply_of_step_host rfl hu, reply_of_step_host rfl hu']
  cases x <;> rfl

end Sys2Proof.Machine
end

section
/-! PROOFS. The chroma upsampler of 41_chroma_upsample.md: which pixels read a chroma element (R132 to R135), and where a
changed chroma byte shows (R137). -/

namespace Sys2Proof.Machine

/-! ## Which pixels read a chroma element -/

/-- Two elements of a chroma plane at the same offset in it are the same element. -/
theorem coff_eq_iff {w crow ccol r k : Nat} (hc : ccol < chromaW w) (hk : k < chromaW w) :
    coff w crow ccol = coff w r k ↔ crow = r ∧ ccol = k := by
  have place {x y : Nat} (hy : y < chromaW w) : coff w x y / chromaW w = x ∧ coff w x y % chromaW w = y :=
    (Nat.div_mod_unique (Nat.zero_lt_of_lt hk)).2 ⟨by rw [coff, Nat.mul_comm, Nat.add_comm], hy⟩
  refine ⟨fun h => ?_, fun ⟨hr, hk⟩ => by rw [hr, hk]⟩
  obtain ⟨hdiv, hmod⟩ := place (x := crow) hc
  rw [h] at hdiv hmod
  exact ⟨hdiv.symm.trans (place hk).1, hmod.symm.trans (place hk).2⟩

theorem uOffset_eq_iff {w h crow ccol r k : Nat} (hc : ccol < chromaW w) (hk : k < chromaW w) :
    uOffset w h crow ccol = uOffset w h r k ↔ crow = r ∧ ccol = k :=
  Nat.add_left_cancel_iff.trans (coff_eq_iff hc hk)

theorem vOffset_eq_iff {w h crow ccol r k : Nat} (hc : ccol < chromaW w) (hk : k < chromaW w) :
    vOffset w h crow ccol = vOffset w h r k ↔ crow = r ∧ ccol = k :=
  Nat.add_left_cancel_iff.trans (coff_eq_iff hc hk)

/-- The chroma coordinates of a pixel lie in the plane, as both dimensions are even. -/
theorem half_lt_half {n x : Nat} (hn : n % 2 = 0) (hx : x < n) : x / 2 < n / 2 := by omega

/-- The rows, or the columns, of the block of a chroma element. -/
theorem half_eq_iff (x n : Nat) : x / 2 = n ↔ x = 2 * n ∨ x = 2 * n + 1 := by omega

/-- Settles O43: the offset of a chroma element names it, and `CIDX` halves the row and the column. -/
theorem chromaElementServesItsBlock : Obligations.ChromaElementServesItsBlock := by
  intro w h r k row col hw _ _ hk _ hcol
  have hc : col / 2 < chromaW w := half_lt_half hw hcol
  rw [← half_eq_iff, ← half_eq_iff]
  exact ⟨uOffset_eq_iff hc hk, vOffset_eq_iff hc hk⟩

/-! ## A changed chroma byte

The three planes are disjoint: a store in a chroma plane is seen by the fetches from that plane only, and among them by those of
the stored element only. -/

theorem ubase_le_uOffset (w h crow ccol : Nat) : ubase w h ≤ uOffset w h crow ccol := Nat.le_add_right _ _

theorem vbase_le_vOffset (w h crow ccol : Nat) : vbase w h ≤ vOffset w h crow ccol := Nat.le_add_right _ _

theorem ubase_le_vbase (w h : Nat) : ubase w h ≤ vbase w h := Nat.le_add_right _ _

/-- An element of the U plane stands below the V plane. -/
theorem uOffset_lt_vbase {w h crow ccol : Nat} (hr : crow < chromaH h) (hc : ccol < chromaW w) :
    uOffset w h crow ccol < vbase w h :=
  Nat.add_lt_add_left (rasterIndex_lt (w := chromaW w) (h := chromaH h) hr hc) _

section
variable {s : State} (b : Byte) (hwf : Memory.wf s.ibuf = true)
include hwf

/-- A store above the luma plane changes no luma sample. -/
theorem yfetch_storeIbuf_of_ubase_le {a row col : Nat} (ha : ubase s.wLat.toNat s.hLat.toNat ≤ a) (hrow : row < s.hLat.toNat)
    (hcol : col < s.wLat.toNat) : yfetch (storeIbuf s a b) row col = yfetch s row col :=
  (ibufByte_storeIbuf a b _ hwf).trans (if_neg (Nat.ne_of_lt (Nat.lt_of_lt_of_le (rasterIndex_lt hrow hcol) ha)))

/-- A store in the V plane or above changes no U sample. -/
theorem ufetch_storeIbuf_of_vbase_le {a crow ccol : Nat} (ha : vbase s.wLat.toNat s.hLat.toNat ≤ a)
    (hr : crow < chromaH s.hLat.toNat) (hc : ccol < chromaW s.wLat.toNat) :
    ufetch (storeIbuf s a b) crow ccol = ufetch s crow ccol :=
  (ibufByte_storeIbuf a b _ hwf).trans (if_neg (Nat.ne_of_lt (Nat.lt_of_lt_of_le (uOffset_lt_vbase hr hc) ha)))

/-- A store below the V plane changes no V sample. -/
theorem vfetch_storeIbuf_of_lt_vbase {a : Nat} (crow ccol : Nat) (ha : a < vbase s.wLat.toNat s.hLat.toNat) :
    vfetch (storeIbuf s a b) crow ccol = vfetch s crow ccol :=
  (ibufByte_storeIbuf a b _ hwf).trans (if_neg (Nat.ne_of_gt (Nat.lt_of_lt_of_le ha (vbase_le_vOffset _ _ _ _))))

theorem ufetch_storeIbuf_uOffset {r k crow ccol : Nat} (hk : k < chromaW s.wLat.toNat) (hc : ccol < chromaW s.wLat.toNat) :
    ufetch (storeIbuf s (uOffset s.wLat.toNat s.hLat.toNat r k) b) crow ccol =
      if crow = r ∧ ccol = k then b else ufetch s crow ccol :=
  (ibufByte_storeIbuf _ b _ hwf).trans (if_congr (uOffset_eq_iff hc hk) rfl rfl)

theorem vfetch_storeIbuf_vOffset {r k crow ccol : Nat} (hk : k < chromaW s.wLat.toNat) (hc : ccol < chromaW s.wLat.toNat) :
    vfetch (storeIbuf s (vOffset s.wLat.toNat s.hLat.toNat r k) b) crow ccol =
      if crow = r ∧ ccol = k then b else vfetch s crow ccol :=
  (ibufByte_storeIbuf _ b _ hwf).trans (if_congr (vOffset_eq_iff hc hk) rfl rfl)

/-- A pixel after a store to a U element: its own Y and V, and as U the new byte if the pixel is in the element's block. -/
theorem pixelAt_storeIbuf_uOffset {r k row col : Nat} (hw : s.wLat.toNat % 2 = 0) (hr : r < chromaH s.hLat.toNat)
    (hk : k < chromaW s.wLat.toNat) (hrow : row < s.hLat.toNat) (hcol : col < s.wLat.toNat) :
    pixelAt (storeIbuf s (uOffset s.wLat.toNat s.hLat.toNat r k) b) row col =
      csc (yfetch s row col) (if row / 2 = r ∧ col / 2 = k then b else ufetch s (row / 2) (col / 2))
        (vfetch s (row / 2) (col / 2)) := by
  simp only [pixelAt, cidx, yfetch_storeIbuf_of_ubase_le b hwf (ubase_le_uOffset _ _ _ _) hrow hcol,
    ufetch_storeIbuf_uOffset b hwf hk (half_lt_half hw hcol), vfetch_storeIbuf_of_lt_vbase b hwf _ _ (uOffset_lt_vbase hr hk)]

/-- A pixel after a store to a V element: its own Y and U, and as V the new byte if the pixel is in the element's block. -/
theorem pixelAt_storeIbuf_vOffset {r k row col : Nat} (hw : s.wLat.toNat % 2 = 0) (hh : s.hLat.toNat % 2 = 0)
    (hk : k < chromaW s.wLat.toNat) (hrow : row < s.hLat.toNat) (hcol : col < s.wLat.toNat) :
    pixelAt (storeIbuf s (vOffset s.wLat.toNat s.hLat.toNat r k) b) row col =
      csc (yfetch s row col) (ufetch s (row / 2) (col / 2))
        (if row / 2 = r ∧ col / 2 = k then b else vfetch s (row / 2) (col / 2)) := by
  have hv := vbase_le_vOffset s.wLat.toNat s.hLat.toNat r k
  have hc : col / 2 < chromaW s.wLat.toNat := half_lt_half hw hcol
  simp only [pixelAt, cidx, yfetch_storeIbuf_of_ubase_le b hwf (Nat.le_trans (ubase_le_vbase _ _) hv) hrow hcol,
    ufetch_storeIbuf_of_vbase_le b hwf hv (half_lt_half hh hrow) hc, vfetch_storeIbuf_vOffset b hwf hk hc]

end

/-- Settles O44, by what a pixel is after a store to a U element and after one to a V element. -/
theorem chromaChangeStaysInItsBlock : Obligations.ChromaChangeStaysInItsBlock := by
  intro s r k row col b hwf hw hh hr hk hrow hcol t t'
  have hu : pixelAt t row col = _ := pixelAt_storeIbuf_uOffset b hwf hw hr hk hrow hcol
  have hv : pixelAt t' row col = _ := pixelAt_storeIbuf_vOffset b hwf hw hh hk hrow hcol
  rw [hu, hv]
  constructor
  · intro hout
    rw [if_neg hout, if_neg hout]
    exact ⟨rfl, rfl⟩
  · rintro rfl rfl
    rw [if_pos ⟨rfl, rfl⟩, if_pos ⟨rfl, rfl⟩]
    exact ⟨rfl, rfl⟩

end Sys2Proof.Machine
end

section
/-! PROOFS. The rules of 42_color_transform.md: the floor shift against the exact and the truncating quotient (R156, R160 to R162), the clamp as a
bounded value (R157), and the transform's formulas, grey axis and monotonicity (R158, R166, R167). -/

namespace Sys2Proof.Machine

/-! ## The floor shift -/

theorem shr8_eq_floor (s : Int) : shr8 s = ⌊(s : ℚ) / 256⌋ := (Rat.floor_intCast_div_natCast s 256).symm

theorem shr8_eq_fdiv (s : Int) : shr8 s = Int.fdiv s 256 := (Int.fdiv_eq_ediv_of_nonneg s (by decide)).symm

/-- Rounding down and rounding toward zero part only below zero, between multiples of 256 (R161). -/
theorem tdiv_eq_shr8 {s : Int} (h : 0 ≤ s ∨ 256 ∣ s) : Int.tdiv s 256 = shr8 s := by
  rw [Int.tdiv_eq_ediv, if_pos h, Int.add_zero, shr8]

theorem tdiv_eq_shr8_add_one {s : Int} (h : ¬(0 ≤ s ∨ 256 ∣ s)) : Int.tdiv s 256 = shr8 s + 1 := by
  rw [Int.tdiv_eq_ediv, if_neg h, shr8]
  rfl

theorem shr8_neg {s : Int} (h : s < 0) : shr8 s < 0 := Int.ediv_neg_of_neg_of_pos h (by decide)

/-- Settles O49: half of 256 added before the floor is one half added to the quotient. -/
theorem biasRoundsHalvesUp : Obligations.BiasRoundsHalvesUp := by
  intro x
  have hq : ((x + 128 : Int) : ℚ) / 256 = (x : ℚ) / 256 + 1 / 2 := by
    push_cast
    ring
  rw [shr8_eq_floor, hq]

/-- Settles O50, by whether the truncating quotient is the floor or one more. -/
theorem shiftIsFloor : Obligations.ShiftIsFloor := by
  intro s
  refine ⟨shr8_eq_floor s, ?_⟩
  by_cases h : 0 ≤ s ∨ 256 ∣ s
  · rw [tdiv_eq_shr8 h]
    omega
  · rw [tdiv_eq_shr8_add_one h]
    omega

/-! ## The clamp -/

theorem clamp8_of_nonpos {t : Int} (h : t ≤ 0) : clamp8 t = 0 := by
  obtain hneg | rfl := Int.lt_or_eq_of_le h
  · exact if_pos hneg
  · rfl

theorem clamp8_of_255_le {t : Int} (h : 255 ≤ t) : clamp8 t = 255 := by
  rw [clamp8, if_neg (by omega)]
  obtain hbig | rfl := Int.lt_or_eq_of_le h
  · exact if_pos hbig
  · rfl

/-- The clamp keeps a byte value as it is. -/
theorem toNat_clamp8_of_byte {t : Int} (h0 : 0 ≤ t) (h255 : t ≤ 255) : ((clamp8 t).toNat : Int) = t := by
  rw [clamp8, if_neg (by omega), if_neg (by omega), BitVec.toNat_ofInt]
  omega

/-- The clamped byte as a number: `t` brought into `[0, 255]`. -/
theorem toNat_clamp8 (t : Int) : ((clamp8 t).toNat : Int) = max 0 (min t 255) := by
  obtain hlow | hpos := le_or_gt t 0
  · rw [clamp8_of_nonpos hlow]
    change (0 : Int) = _
    omega
  obtain hmid | hhigh := le_or_gt t 255
  · rw [toNat_clamp8_of_byte hpos.le hmid]
    omega
  · rw [clamp8_of_255_le hhigh.le]
    change (255 : Int) = _
    omega

theorem clamp8_mono {s t : Int} (h : s ≤ t) : clamp8 s ≤ clamp8 t := by
  rw [BitVec.le_def, ← Int.ofNat_le, toNat_clamp8, toNat_clamp8]
  omega

/-- Settles O48: the clamp below 0, above 255 and in between, and by bits. -/
theorem clampSaturates : Obligations.ClampSaturates :=
  ⟨fun _ => ⟨fun h => clamp8_of_nonpos h.le, fun h => clamp8_of_255_le h.le, toNat_clamp8_of_byte⟩, clamp8Bits_eq⟩

/-- Settles O51: where the quotients differ, the floor is below 0 and the truncated quotient at most 0, so both clamp to 0. -/
theorem shiftDirectionIsInvisible : Obligations.ShiftDirectionIsInvisible := by
  intro s
  by_cases h : 0 ≤ s ∨ 256 ∣ s
  · rw [tdiv_eq_shr8 h]
  · have hneg : shr8 s < 0 := shr8_neg (by omega)
    rw [tdiv_eq_shr8_add_one h, clamp8_of_nonpos hneg.le, clamp8_of_nonpos hneg]

/-! ## The formulas and the grey axis -/

/-- Settles O46: the biases and sums written out, and the floor shift as a floor division. -/
theorem transformFormulas : Obligations.TransformFormulas := by
  intro y u v
  simp only [csc, shr8_eq_fdiv]
  rfl

/-- Without chroma the three sums are one sum (R166). -/
theorem macR_zero (c : Int) : macR c 0 = 298 * c + 128 := by
  rw [macR, Int.mul_zero, Int.add_zero]
  rfl

theorem macG_zero_zero (c : Int) : macG c 0 0 = macR c 0 := by
  simp only [macG, macR, Int.mul_zero, Int.sub_zero, Int.add_zero]

theorem macB_zero (c : Int) : macB c 0 = macR c 0 := by
  simp only [macB, macR, Int.mul_zero]

/-- The grey pixel of a luma sample. -/
theorem csc_grey (y : Byte) :
    csc y 128 128 = ⟨clamp8 (shr8 (macR (biasY y) 0)), clamp8 (shr8 (macR (biasY y) 0)), clamp8 (shr8 (macR (biasY y) 0))⟩ := by
  have hu : biasU 128 = 0 := rfl
  have hv : biasV 128 = 0 := rfl
  simp only [csc, hu, hv, macG_zero_zero, macB_zero]

/-- Settles O52: on the grey axis one sum gives all three channels, at most 0 after the shift for luma up to 16 and at least 255 from 235 on. -/
theorem greyAxis : Obligations.GreyAxis := by
  refine ⟨rfl, rfl, fun y => ?_⟩
  have hsum : macR (biasY y) 0 = 298 * ((y.toNat : Int) - 16) + 128 := macR_zero _
  refine ⟨hsum, macG_zero_zero _, macB_zero _, ?_⟩
  rw [csc_grey]
  refine ⟨rfl, rfl, fun hblack => clamp8_of_nonpos ?_, fun hwhite => clamp8_of_255_le ?_⟩
  · rw [hsum, shr8]
    omega
  · rw [hsum, shr8]
    omega

/-! ## Monotonicity -/

theorem biasY_mono {y y' : Byte} (h : y ≤ y') : biasY y ≤ biasY y' := Int.sub_le_sub_right (Int.ofNat_le.2 h) _

theorem biasU_mono {u u' : Byte} (h : u ≤ u') : biasU u ≤ biasU u' := Int.sub_le_sub_right (Int.ofNat_le.2 h) _

theorem biasV_mono {v v' : Byte} (h : v ≤ v') : biasV v ≤ biasV v' := biasU_mono h

theorem macR_mono {c c' e e' : Int} (hc : c ≤ c') (he : e ≤ e') : macR c e ≤ macR c' e' := by
  simp only [macR, kY, kRV]
  omega

/-- The green sum weighs `d` and `e` negatively. -/
theorem macG_mono {c c' d d' e e' : Int} (hc : c ≤ c') (hd : d' ≤ d) (he : e' ≤ e) : macG c d e ≤ macG c' d' e' := by
  simp only [macG, kY, kGU, kGV]
  omega

theorem macB_mono {c c' d d' : Int} (hc : c ≤ c') (hd : d ≤ d') : macB c d ≤ macB c' d' := by
  simp only [macB, kY, kBU]
  omega

section
variable {y y' u u' v v' : Byte}

/-- Red rises with `Y` and `V`, whatever `U` is. -/
theorem csc_r_mono (hy : y ≤ y') (hv : v ≤ v') : (csc y u v).r ≤ (csc y' u' v').r :=
  clamp8_mono (shr8_mono (macR_mono (biasY_mono hy) (biasV_mono hv)))

/-- Green rises with `Y` and falls with `U` and `V`. -/
theorem csc_g_mono (hy : y ≤ y') (hu : u' ≤ u) (hv : v' ≤ v) : (csc y u v).g ≤ (csc y' u' v').g :=
  clamp8_mono (shr8_mono (macG_mono (biasY_mono hy) (biasU_mono hu) (biasV_mono hv)))

/-- Blue rises with `Y` and `U`, whatever `V` is. -/
theorem csc_b_mono (hy : y ≤ y') (hu : u ≤ u') : (csc y u v).b ≤ (csc y' u' v').b :=
  clamp8_mono (shr8_mono (macB_mono (biasY_mono hy) (biasU_mono hu)))

end

/-- From three zero samples, raising any one of them changes green. -/
theorem csc_g_depends_on_each : (csc 0 0 0).g ≠ (csc 255 0 0).g ∧ (csc 0 0 0).g ≠ (csc 0 255 0).g ∧ (csc 0 0 0).g ≠ (csc 0 0 255).g := by
  decide

/-- Settles O53: bias, sum, shift and clamp are each monotone; red's sum has no `U` and blue's no `V`. -/
theorem transformMonotone : Obligations.TransformMonotone := by
  obtain ⟨hY, hU, hV⟩ := csc_g_depends_on_each
  refine ⟨fun _ _ _ _ => rfl, fun _ _ _ _ => rfl, fun y y' u v h => ?_, fun y u u' v h => ?_, fun y u v v' h => ?_,
    ⟨0, 255, 0, 0, hY⟩, ⟨0, 0, 255, 0, hU⟩, ⟨0, 0, 0, 255, hV⟩⟩
  · have hu := BitVec.le_refl u
    have hv := BitVec.le_refl v
    exact ⟨csc_r_mono h hv, csc_g_mono h hu hv, csc_b_mono h hu⟩
  · have hy := BitVec.le_refl y
    exact ⟨csc_g_mono hy h (BitVec.le_refl v), csc_b_mono hy h⟩
  · have hy := BitVec.le_refl y
    exact ⟨csc_r_mono hy h, csc_g_mono hy (BitVec.le_refl u) h⟩

end Sys2Proof.Machine
end

section
/-! PROOFS. Which pixel of the output frame a byte belongs to (R184). -/

namespace Sys2Proof.Machine

/-- In rows of `b` the element at row `q`, column `r` has index `n` exactly when `q` and `r` are quotient and remainder of `n`. -/
theorem mul_add_eq_iff_div_mod {b q r n : Nat} (hr : r < b) : q * b + r = n ↔ q = n / b ∧ r = n % b := by
  have h : n / b = q ∧ n % b = r ↔ r + b * q = n ∧ r < b := Nat.div_mod_unique (Nat.zero_lt_of_lt hr)
  rw [and_iff_left hr] at h
  rw [Nat.mul_comm, Nat.add_comm, ← h, eq_comm, eq_comm (a := r)]

/-- Byte `j` of a pixel stands at `k` exactly when `k div BPP` is the pixel's index and `k mod BPP` is `j`. -/
theorem poff_add_eq_iff {w row col j k : Nat} {a : Bool} (hj : j < bpp a) :
    poff w row col a + j = k ↔ row * w + col = k / bpp a ∧ j = k % bpp a :=
  mul_add_eq_iff_div_mod hj

/-- Settles O45: dividing the offset by `BPP` gives the owner's index, dividing that by the width its row and column; both divisions are unique. -/
theorem eachOutputByteHasOneOwner : Obligations.EachOutputByteHasOneOwner := by
  intro w h a k hk
  have hp : k / bpp a < w * h := Nat.div_lt_of_lt_mul (by rwa [Nat.mul_comm])
  have hw : 0 < w := Nat.pos_of_mul_pos_right (Nat.zero_lt_of_lt hp)
  have hj : k % bpp a < bpp a := Nat.mod_lt _ (bpp_pos a)
  have hindex : k / bpp a / w * w + k / bpp a % w = k / bpp a := Nat.div_add_mod' _ _
  refine ⟨k / bpp a / w, k / bpp a % w, k % bpp a, Nat.div_lt_of_lt_mul hp, Nat.mod_lt _ hw, hj,
    (poff_add_eq_iff hj).2 ⟨hindex, rfl⟩, hindex, rfl, fun row' col' j' _ hcol' hj' hplace => ?_⟩
  obtain ⟨hindex', hbyte⟩ := (poff_add_eq_iff hj').1 hplace
  obtain ⟨hrow, hcol⟩ := (mul_add_eq_iff_div_mod hcol').1 hindex'
  exact ⟨hrow, hcol, hbyte⟩

end Sys2Proof.Machine
end

section
/-! PROOFS. The rules of 60_exceptions.md: fault entry (R200), what cannot fault (R201), and the only ways out of phase ERROR (R202). -/

namespace Sys2Proof.Machine

/-! ## Fault entry -/

/-- Settles O11: fault entry field by field; with `ERR` set and `BUSY` clear ENGINE and every command but `SRST` do nothing. -/
theorem faultEntryEffect : Obligations.FaultEntryEffect := by
  intro c s hw t
  have hst : t.status = ⟨false, s.status.done, true, causeCode c, s.status.alpha⟩ := enterFault_status s c
  have herr : t.status.err = true := by rw [hst]
  have hbusy : t.status.busy = false := by rw [hst]
  have hirq : irqOf t = ((s.status.done && s.irqEn.doneIe) || s.irqEn.errIe) := by
    rw [irqOf, hst, enterFault_irqEn, Bool.true_and]
  have hengine : engineMove t = .next t := by rw [engineMove, if_neg (by simp [hbusy])]
  exact ⟨herr, by rw [hst], hbusy, enterFault_pos s c, by rw [hst], by rw [hst], enterFault_width s c, enterFault_height s c,
    enterFault_inLen s c, enterFault_irqEn s c, enterFault_wLat s c, enterFault_hLat s c,
    ibufByte_congr (enterFault_ibuf s c) (enterFault_bufDraw s c),
    fun k hk => obufByte_of_abort (enterFault_obuf s c) (enterFault_bufDraw s c) hw hk, hirq, if_pos herr, hengine,
    fun i => commandsIgnoredInError i t herr, execIllegal_of_err herr⟩

/-- Settles O12, cause by cause. -/
theorem causeCodes : Obligations.CauseCodes := ⟨rfl, rfl, rfl, rfl, rfl, rfl⟩

/-! ## What cannot fault -/

/-- ENGINE's move answers a next state, BUSY or not (R201). -/
theorem step_engine_next {s : State} {rest : List Move} (hs : s.FrameInv) (hn : EngineNext s rest) : ∃ t, step s = .next t := by
  cases hb : s.status.busy with
  | true => exact ⟨_, step_engine hs hb hn⟩
  | false => exact ⟨_, step_engine_idle hb hn⟩

/-- A HOST transaction is performed or refused, and never stops with a fault (R201). -/
theorem step_host_ne_fault {s : State} {x : Txn} {rest : List Move} (hi : s.inbox = .host x :: rest) (r : Fault) :
    step s ≠ .fault r := by
  cases hd : txnDefined x with
  | true =>
    obtain ⟨t, ht⟩ := performTxn_next x { s with inbox := rest, reply := .none }
    rw [step_host_defined hi hd, ht]
    exact nofun
  | false =>
    rw [step_host_undefined hi hd]
    exact nofun

/-- No step from a state with a legal frame stops with a fault, whoever moves. -/
theorem step_ne_fault {s : State} (hs : s.FrameInv) (r : Fault) : step s ≠ .fault r := by
  have engine : ∀ {rest}, EngineNext s rest → step s ≠ .fault r := fun hn => by
    obtain ⟨t, ht⟩ := step_engine_next hs hn
    rw [ht]
    exact nofun
  match hi : s.inbox with
  | [] => exact engine (.inr ⟨hi, rfl⟩)
  | .engine :: rest => exact engine (.inl hi)
  | .host x :: rest => exact step_host_ne_fault hi r
  | .reset :: rest =>
    rw [step_reset hi]
    exact nofun

/-! ## What changes `ERR` and `CAUSE` -/

@[simp] theorem writeReg_err (s : State) (off : Nat) (v : Word) : (writeReg s off v).status.err = s.status.err := by
  rw [writeReg_status]; split_ifs <;> simp
@[simp] theorem writeReg_cause (s : State) (off : Nat) (v : Word) : (writeReg s off v).status.cause = s.status.cause := by
  rw [writeReg_status]; split_ifs <;> simp

theorem issues_iff {s : State} {w : Word} : s.issues w = true ↔ s.inbox.head? = some (issue w) := by
  simp [State.issues]

/-- A step keeps `ERR` and `CAUSE` unless it is a hardware reset, `SRST`, or a command word that faults in a state with `ERR = 0`. -/
theorem StepEffect.err_cause_cases {s t : State} (h : StepEffect s t) :
    (t.status.err = s.status.err ∧ t.status.cause = s.status.cause) ∨ s.resetNext = true ∨ s.issues 0x0000000F = true ∨
      ∃ w, s.issues w = true ∧ s.status.err = false := by
  cases h with
  | idle | quiet | ibufWrite | accept => exact .inl ⟨rfl, rfl⟩
  | pixel => exact .inl ⟨pixelEffect_err _, pixelEffect_cause _⟩
  | regWrite bits off v => exact .inl ⟨writeReg_err _ off v, writeReg_cause _ off v⟩
  | reset hh => exact .inr (.inl (resetNext_iff.2 hh))
  | srst hh => exact .inr (.inr (.inl (issues_iff.2 hh)))
  | fault w c hh _ _ he => exact .inr (.inr (.inr ⟨w, issues_iff.2 hh, he⟩))

/-- Settles O31: no move stops with a fault, and what changes `ERR` is a hardware reset or a word written to `CMD`. -/
theorem onlyCommandWritesFault : Obligations.OnlyCommandWritesFault := by
  refine ⟨fun s r hs => step_ne_fault hs.frame r, fun s t h hr hw => ?_⟩
  rcases (stepEffect_of_step h).err_cause_cases with ⟨he, -⟩ | hr' | hF | ⟨w, hw', -⟩
  · exact he
  · cases hr.symm.trans hr'
  · cases (hw _).symm.trans hF
  · cases (hw w).symm.trans hw'

/-! ## The ways out of phase ERROR -/

/-- In phase ERROR a step that is neither `SRST` nor a hardware reset keeps `ERR` and the first cause. -/
theorem StepEffect.error_kept {s t : State} (h : StepEffect s t) (he : s.status.err = true) (hr : s.resetNext = false)
    (hF : s.issues 0x0000000F = false) : t.status.err = true ∧ t.status.cause = s.status.cause := by
  rcases h.err_cause_cases with ⟨he', hc⟩ | hr' | hF' | ⟨_, -, he'⟩
  · exact ⟨he'.trans he, hc⟩
  · cases hr.symm.trans hr'
  · cases hF.symm.trans hF'
  · cases he'.symm.trans he

/-- `ERR` and `BUSY` are never both set (R30). -/
theorem State.StatusInv.not_busy_of_err {s : State} (h : s.StatusInv) (he : s.status.err = true) : s.status.busy = false :=
  Bool.eq_false_iff.2 fun hb => h.busy_not_err ⟨hb, he⟩

/-- Only a running conversion changes `OBUF`, besides a hardware reset. -/
theorem StepEffect.obuf_eq_of_not_busy {s t : State} (h : StepEffect s t) (hr : s.resetNext = false)
    (hb : s.status.busy = false) : t.obuf = s.obuf := by
  rcases h.obuf_cases hr with ho | ⟨hb', -⟩ | ⟨hb', -⟩
  · exact ho
  · cases hb.symm.trans hb'
  · cases hb.symm.trans hb'

/-- The step whose next move writes `SRST` to `CMD` is the soft reset. -/
theorem eq_softReset_of_issues {s t : State} (h : step s = .next t) (hF : s.issues 0x0000000F = true) :
    t = softReset (s.taken .none) := by
  obtain ⟨rest, hi⟩ := List.head?_eq_some_iff.1 (issues_iff.1 hF)
  rw [stepRunsDecodedCommand s 0x0000000F .srst rest rfl hi] at h
  cases h
  rw [State.taken, hi]
  rfl

/-- Settles O32: ERROR is kept by every other step, and BUSY, without which nothing changes `OBUF`, is 0 in it; both resets put every register at 0. -/
theorem errorLeftOnlyByReset : Obligations.ErrorLeftOnlyByReset := by
  refine ⟨fun s t hs he h hr hF => ?_, fun s t h hx => ?_⟩
  · have hstep := stepEffect_of_step h
    obtain ⟨he', hc⟩ := hstep.error_kept he hr hF
    exact ⟨he', hc, (hstep.statusInv hs).not_busy_of_err he', hstep.obuf_eq_of_not_busy hr (hs.not_busy_of_err he)⟩
  · rcases hx with hr | hF
    · obtain rfl := (stepEffect_of_step h).eq_hardReset hr
      exact ⟨rfl, rfl, rfl, rfl, rfl, rfl, rfl, rfl⟩
    · obtain rfl := eq_softReset_of_issues h hF
      exact ⟨softReset_status _, softReset_width _, softReset_height _, softReset_inLen _, softReset_irqEn _,
        softReset_wLat _, softReset_hLat _, softReset_pos _⟩

end Sys2Proof.Machine
end

section
/-! PROOFS. The rules of 70_reset_and_hazards.md: hardware reset against `SRST` (R221), the end of a started conversion
(R236), and the boot sequence (R224). -/

namespace Sys2Proof.Machine

/-! ## A conversion ends -/

/-- The pixel steps left to a running conversion: `W*H` minus the raster index of `pos` (R118). -/
def State.pixelsLeft (s : State) : Nat :=
  s.wLat.toNat * s.hLat.toNat - (s.pos.row.toNat * s.wLat.toNat + s.pos.col.toNat)

/-- From `s` it stays BUSY for fewer than `n` steps, and after exactly `n` the conversion has ended well. -/
def EndsAfter (n : Nat) (s : State) : Prop :=
  (∀ k, k < n → ∃ t : State, Host.Core.run core k s = .next t ∧ t.status.busy = true) ∧
    ∃ t : State, Host.Core.run core n s = .next t ∧ t.status.busy = false ∧ t.status.done = true ∧ t.status.err = false

/-- A step from a BUSY state adds one to the steps until the end. -/
theorem EndsAfter.of_step {n : Nat} {s t : State} (hb : s.status.busy = true) (hstep : step s = .next t)
    (h : EndsAfter n t) : EndsAfter (n + 1) s := by
  obtain ⟨hbusy, u, hrun, hend⟩ := h
  refine ⟨fun k hk => ?_, u, run_step hstep hrun, hend⟩
  cases k with
  | zero => exact ⟨s, rfl, hb⟩
  | succ k =>
    obtain ⟨v, hv, hvb⟩ := hbusy k (by omega)
    exact ⟨v, run_step hstep hv, hvb⟩

/-- While BUSY at least one pixel step is left. -/
theorem State.FrameInv.pixelsLeft_pos {s : State} (hs : s.FrameInv) (hb : s.status.busy = true) : 0 < s.pixelsLeft := by
  obtain ⟨hr, hc⟩ := hs.pos_in hb
  exact Nat.sub_pos_of_lt (rasterIndex_lt hr hc)

/-- At the last pixel it is the only one. -/
theorem pixelsLeft_of_last {s : State} (h : s.pos.row.toNat + 1 = s.hLat.toNat ∧ s.pos.col.toNat + 1 = s.wLat.toNat) :
    s.pixelsLeft = 1 := by
  obtain ⟨hr, hc⟩ := h
  rw [State.pixelsLeft, ← hr, Nat.mul_succ, Nat.mul_comm]
  omega

/-- At every other pixel its step leaves one less. -/
theorem pixelsLeft_of_not_last {s : State} (hr : s.pos.row.toNat < s.hLat.toNat) (hc : s.pos.col.toNat < s.wLat.toNat)
    (h : ¬(s.pos.row.toNat + 1 = s.hLat.toNat ∧ s.pos.col.toNat + 1 = s.wLat.toNat)) :
    (pixelEffect s).pixelsLeft = s.pixelsLeft - 1 := by
  rw [State.pixelsLeft, pixelEffect_wLat, pixelEffect_hLat, (pixelEffect_of_not_last h).2, (nextPos_spec hr hc h).2.2,
    ← Nat.sub_sub]
  rfl

/-- With no move to come a BUSY state takes the pixel step. -/
theorem step_engine_alone {s : State} (hs : s.FrameInv) (hb : s.status.busy = true) (hi : s.inbox = []) :
    step s = .next (pixelEffect s) := by
  have h := step_engine hs hb (.inr ⟨hi, rfl⟩)
  rwa [← hi] at h

/-- With HOST silent a running conversion ends after the pixel steps that are left. -/
theorem endsAfter_pixelsLeft {n : Nat} : ∀ {s : State}, s.Inv → s.status.busy = true → s.inbox = [] → s.pixelsLeft = n →
    EndsAfter n s := by
  induction n with
  | zero => exact fun hs hb _ hn => absurd hn (Nat.ne_of_gt (hs.frame.pixelsLeft_pos hb))
  | succ n ih =>
    intro s hs hb hi hn
    have hstep := step_engine_alone hs.frame hb hi
    obtain ⟨hr, hc⟩ := hs.frame.pos_in hb
    refine .of_step hb hstep ?_
    by_cases hl : s.pos.row.toNat + 1 = s.hLat.toNat ∧ s.pos.col.toNat + 1 = s.wLat.toNat
    · obtain rfl : n = 0 := Nat.succ.inj (hn.symm.trans (pixelsLeft_of_last hl))
      have herr : s.status.err = false := Bool.eq_false_iff.2 fun he => hs.status.busy_not_err ⟨hb, he⟩
      refine ⟨nofun, _, rfl, ?_⟩
      rw [(pixelEffect_of_last hl).1]
      exact ⟨rfl, rfl, herr⟩
    · refine ih (stepKeepsInvariants s _ hs hstep) ?_ ((pixelEffect_inbox s).trans hi) ?_
      · rw [(pixelEffect_of_not_last hl).1, hb]
      · rw [pixelsLeft_of_not_last hr hc hl, hn, Nat.add_sub_cancel]

/-- Settles O58, by induction on the pixel steps left. -/
theorem conversionTerminates : Obligations.ConversionTerminates :=
  fun _ hs hb hi => endsAfter_pixelsLeft hs hb hi rfl

/-! ## The boot sequence -/

/-- A HOST write to a register other than `CMD` (R101). -/
theorem step_wr {s : State} {off : Nat} {v : Word} {rest : List Move} (h4 : off % 4 = 0) (ho : off < 256) (h0 : off ≠ 0)
    (hi : s.inbox = .host (.wr 32 off v) :: rest) :
    step s = .next (writeReg { s with inbox := rest, reply := .none } off v) := by
  rw [step_host_defined hi (regAccessDefined_word h4 ho), performTxn, if_neg h0]

/-- `s` with the registers `CONVERT` programs set for a `w` by `h` frame (R94). -/
def State.programmed (s : State) (w h : Nat) : State :=
  { s with
    width := (BitVec.ofNat 32 w).setWidth 16
    height := (BitVec.ofNat 32 h).setWidth 16
    inLen := BitVec.ofNat 32 (w * h * 3 / 2)
    reply := .none }

/-- The transactions of `CONVERT` program the registers, then execute the command. -/
theorem run_convertLines {s t : State} {w h : Nat} {a : Bool} {rest : List Move}
    (hi : s.inbox = (convertLines w h a).map .host ++ rest)
    (hx : exec (convCommand a) (({ s with inbox := rest } : State).programmed w h) = .next t) :
    Host.Core.run core 4 s = .next t := by
  refine run_step (step_wr (by decide) (by decide) (by decide) hi) ?_
  refine run_step (step_wr (by decide) (by decide) (by decide) rfl) ?_
  refine run_step (step_wr (by decide) (by decide) (by decide) rfl) ?_
  exact run_step ((stepRunsDecodedCommand _ _ (convCommand a) rest (decode_encode _) rfl).trans hx) rfl

/-- The size of a legal frame that fits is a value of `IN_LEN`: it is at most `2^32` (R5) and, as a multiple of 6, less. -/
theorem fsize_lt_of_fits {w h : Nat} (hw : w % 2 = 0) (hh : h % 2 = 0) (hf : fsize w h ≤ Config.ibufBytes) :
    fsize w h < 2 ^ 32 := by
  have hcap := hf.trans Config.ibufBytes_le
  rw [fsize_eq hw hh] at hcap ⊢
  have h4 : 4 ∣ w * h := Nat.mul_dvd_mul (Nat.dvd_of_mod_eq_zero hw) (Nat.dvd_of_mod_eq_zero hh)
  omega

/-- A legal geometry whose frames fit the buffers (R109). -/
structure LegalFrame (w h : Nat) (a : Bool) : Prop where
  width_pos : 0 < w
  height_pos : 0 < h
  width_even : w % 2 = 0
  height_even : h % 2 = 0
  width_lt : w < 65536
  height_lt : h < 65536
  input_fits : fsize w h ≤ Config.ibufBytes
  output_fits : osize w h a ≤ Config.obufBytes

/-- A dimension below `2^16` comes through the 32-bit write to its register (R31, R32). -/
theorem toNat_dim_of_lt {n : Nat} (hn : n < 65536) : ((BitVec.ofNat 32 n).setWidth 16).toNat = n := by
  rw [BitVec.toNat_setWidth, BitVec.toNat_ofNat]
  omega

section programmed
variable {s : State} {w h : Nat} {a : Bool} (hf : LegalFrame w h a)
include hf

theorem toNat_programmed_width : (s.programmed w h).width.toNat = w := toNat_dim_of_lt hf.width_lt

theorem toNat_programmed_height : (s.programmed w h).height.toNat = h := toNat_dim_of_lt hf.height_lt

theorem toNat_programmed_inLen : (s.programmed w h).inLen.toNat = w * h * 3 / 2 := by
  have hlt := fsize_lt_of_fits hf.width_even hf.height_even hf.input_fits
  rw [fsize_eq hf.width_even hf.height_even] at hlt
  exact (BitVec.toNat_ofNat _ 32).trans (Nat.mod_eq_of_lt hlt)

/-- Programmed for a legal frame, a block at rest accepts the conversion command (R109, R224). -/
theorem canConvert_programmed (he : s.status.err = false) (hb : s.status.busy = false) :
    CanConvert a (s.programmed w h) where
  no_err := he
  not_busy := hb
  width_pos := (toNat_programmed_width hf).symm ▸ hf.width_pos
  height_pos := (toNat_programmed_height hf).symm ▸ hf.height_pos
  width_even := (toNat_programmed_width hf).symm ▸ hf.width_even
  height_even := (toNat_programmed_height hf).symm ▸ hf.height_even
  input_fits := by
    rw [toNat_programmed_width hf, toNat_programmed_height hf, ← fsize_eq hf.width_even hf.height_even]
    exact hf.input_fits
  output_fits := by
    rw [toNat_programmed_width hf, toNat_programmed_height hf]
    exact hf.output_fits
  length_ok := by rw [toNat_programmed_width hf, toNat_programmed_height hf, toNat_programmed_inLen hf]

end programmed

/-- The reset state with `data` in `IBUF` from its start, and the moves `rest` to come. -/
def loaded (data : List Byte) (rest : List Move) : State :=
  { State.reset with ibuf := Memory.write [] 0 data, inbox := rest }

/-- From reset, `LOADFRAME` and `CONVERT` load the frame, program the geometry and start the conversion (R94, R224). -/
theorem run_boot {w h : Nat} {a : Bool} {data : List Byte} {rest : List Move} {t : State} (hl : data.length ≤ Config.ibufBytes)
    (hx : exec (convCommand a) ((loaded data rest).programmed w h) = .next t) :
    Host.Core.run core ((loadFrame data ++ convertLines w h a).map Move.host).length
      ({ State.reset with inbox := (loadFrame data ++ convertLines w h a).map .host ++ rest } : State) = .next t := by
  obtain ⟨r, hload⟩ := run_ibufWrites (bs := data) (a := 0) (rest := (convertLines w h a).map .host ++ rest)
    (s := { State.reset with inbox := (loadFrame data ++ convertLines w h a).map .host ++ rest })
    (by rwa [Nat.zero_add]) (by rw [List.map_append, List.append_assoc]; rfl)
  exact run_append (by simp [loadFrame, convertLines]) hload (run_convertLines rfl hx)

/-- What was loaded is read back. -/
theorem readIbuf_loaded (data : List Byte) (rest : List Move) (w h : Nat) :
    readIbuf ((loaded data rest).programmed w h) 0 data.length = data :=
  readIbuf_of_write (s := State.reset) rfl rfl rfl

theorem bufferInv_loaded {data : List Byte} (rest : List Move) (w h : Nat) (hl : data.length ≤ Config.ibufBytes) :
    ((loaded data rest).programmed w h).BufferInv where
  ibuf_wf := Memory.wf_write 0 data rfl
  obuf_wf := rfl
  ibuf_within := Memory.within_write 0 data (by rwa [Nat.zero_add]) rfl
  obuf_within := rfl

/-- The invariants of `STATUS` hold after every run from a state in which they hold (R30). -/
theorem State.StatusInv.of_run {k : Nat} : ∀ {s t : State}, s.StatusInv → Host.Core.run core k s = .next t → t.StatusInv := by
  induction k with
  | zero => intro s t hs hrun; cases hrun; exact hs
  | succ k ih =>
    intro s t hs hrun
    obtain ⟨u, hstep, hrest⟩ := exists_step_of_run hrun
    exact ih ((stepEffect_of_step hstep).statusInv hs) hrest

/-- With ENGINE alone to move, an accepted conversion ends after `W*H` pixel steps with the converted frame in `OBUF` (R121). -/
theorem run_engine_of_accepted {a : Bool} {s : State} (hs : s.BufferInv) (hc : CanConvert a s)
    (hi : s.inbox = List.replicate (s.width.toNat * s.height.toNat) .engine) :
    ∃ t : State, Host.Core.run core (s.width.toNat * s.height.toNat) (acceptConv a s) = .next t ∧
      readObuf t 0 (osize s.width.toNat s.height.toNat a) =
        convert s.width.toNat s.height.toNat a (readIbuf s 0 (fsize s.width.toNat s.height.toNat)) ∧
      t.status.alpha = a ∧ t.status.done = true ∧ t.status.busy = false ∧ t.status.err = false := by
  obtain ⟨n, hn⟩ := Nat.exists_eq_add_one.2 (Nat.mul_pos hc.width_pos hc.height_pos)
  have hquiet : ∀ m ∈ List.replicate n Move.engine, moveQuiet (fsize s.width.toNat s.height.toNat) m = true :=
    fun m hm => by rw [List.eq_of_mem_replicate hm]; rfl
  have hcount : engineMoves (List.replicate n .engine) + 1 = s.width.toNat * s.height.toNat := by
    rw [engineMoves, List.count_replicate_self, hn]
  obtain ⟨-, t, hrun, hread, -, -, hflags⟩ :=
    conversionComputesReferenceFunction a s _ _ hs hc (exec_convCommand hc) hquiet hcount
  rw [← List.replicate_succ', List.length_replicate, ← hn, ← hi] at hrun
  exact ⟨t, hrun, hread, hflags⟩

/-- Settles O60: the boot transactions start the conversion, ENGINE ends it, and with `ERR = 0` no cause is set. -/
theorem bootSequenceConvertsFrame : Obligations.BootSequenceConvertsFrame := by
  intro w h a data hw hh hw2 hh2 hwlt hhlt hi ho hlen host
  have hf : LegalFrame w h a := ⟨hw, hh, hw2, hh2, hwlt, hhlt, hi, ho⟩
  have hl : data.length ≤ Config.ibufBytes := hlen.trans_le hi
  have hc : CanConvert a ((loaded data (List.replicate (w * h) .engine)).programmed w h) :=
    canConvert_programmed hf rfl rfl
  have hconv := run_engine_of_accepted (bufferInv_loaded _ w h hl) hc
    (by rw [toNat_programmed_width hf, toNat_programmed_height hf]; rfl)
  rw [toNat_programmed_width hf, toNat_programmed_height hf, ← hlen, readIbuf_loaded] at hconv
  obtain ⟨t, hrun, hread, halpha, hdone, hbusy, herr⟩ := hconv
  have hboot := run_append rfl (run_boot hl (exec_convCommand hc)) hrun
  have hcause : t.status.cause = 0 := (State.StatusInv.of_run (statusInv_of_zero rfl) hboot).cause_zero herr
  refine ⟨t, hboot, hread, ?_⟩
  calc t.status = ⟨t.status.busy, t.status.done, t.status.err, t.status.cause, t.status.alpha⟩ := rfl
    _ = ⟨false, true, false, 0, a⟩ := by rw [hbusy, hdone, herr, hcause, halpha]

/-! ## Hardware reset -/

/-- Settles O26: both resets put every register, flag and latch at 0; the hardware reset also lists no byte. -/
theorem hardwareResetEffect : Obligations.HardwareResetEffect := by
  intro s rest hi
  exact ⟨hardReset { s with inbox := rest }, softReset s, step_reset hi, rfl, (softReset_status s).symm,
    (softReset_width s).symm, (softReset_height s).symm, (softReset_inLen s).symm, (softReset_irqEn s).symm,
    (softReset_wLat s).symm, (softReset_hLat s).symm, (softReset_pos s).symm, rfl, rfl, fun _ => ⟨rfl, rfl⟩, rfl⟩

end Sys2Proof.Machine
end
